-- ==== Sys2Proof/Word.lean ====
section
/-! DEFINITION. The word type of the ports and its two halves (00_scope.md R8, R10). -/

namespace Sys2Proof

/-- A value of an operand or result port: 128 bits (R8, 20_memory.md R31). -/
abbrev Word := BitVec 128

/-- One half of a 128-bit value: 64 bits (R8). -/
abbrev Half := BitVec 64

/-- A byte of the big-endian byte view (20_memory.md R33); also the width of a command word (R8). -/
abbrev Byte := BitVec 8

/-- `hi(v) = v[127:64]` (R10). -/
def hi (v : Word) : Half := v.extractLsb' 64 64

/-- `lo(v) = v[63:0]` (R10). -/
def lo (v : Word) : Half := v.extractLsb' 0 64

/-- `{h, l}` (R10): `h` in the more significant position. -/
def join (h l : Half) : Word := h ++ l

end Sys2Proof
end

