-- ==== Sys2Proof/Syntax.lean ====
section
/-! DEFINITION. The commands of IPX-U128 (30_encoding.md), one constructor per row of spec/opcode_table.json, and the
assembler's text forms (R55 to R57).

A command word carries no operand bits (R49): both operands come from the ports, so no constructor has a field. -/

namespace Sys2Proof

/-- The operation field `OP` (30_encoding.md R46), in the source's order (00_scope.md R3). -/
inductive Op where
  | add | sub | shl | shr | cmp | and | or | not | ctz | clz
  deriving DecidableEq, Repr

/-- The width select field `WS` (30_encoding.md R45): `W = 32` or `W = 128`; no other width exists (R2). -/
inductive Width where
  | w32 | w128
  deriving DecidableEq, Repr

/-- The twenty commands (30_encoding.md R47): one constructor per row of the opcode table. -/
inductive Instr where
  | add32 | sub32 | shl32 | shr32 | cmp32 | and32 | or32 | not32 | ctz32 | clz32
  | add128 | sub128 | shl128 | shr128 | cmp128 | and128 | or128 | not128 | ctz128 | clz128
  deriving DecidableEq, Repr

/-- The number of bits `W` of a width (R2, R45). -/
def Width.bits : Width → Nat
  | .w32 => 32
  | .w128 => 128

/-- The operation of a command (R46). -/
def Instr.op : Instr → Op
  | .add32 => .add
  | .sub32 => .sub
  | .shl32 => .shl
  | .shr32 => .shr
  | .cmp32 => .cmp
  | .and32 => .and
  | .or32 => .or
  | .not32 => .not
  | .ctz32 => .ctz
  | .clz32 => .clz
  | .add128 => .add
  | .sub128 => .sub
  | .shl128 => .shl
  | .shr128 => .shr
  | .cmp128 => .cmp
  | .and128 => .and
  | .or128 => .or
  | .not128 => .not
  | .ctz128 => .ctz
  | .clz128 => .clz

/-- The operating width of a command (R45). -/
def Instr.width : Instr → Width
  | .add32 => .w32
  | .sub32 => .w32
  | .shl32 => .w32
  | .shr32 => .w32
  | .cmp32 => .w32
  | .and32 => .w32
  | .or32 => .w32
  | .not32 => .w32
  | .ctz32 => .w32
  | .clz32 => .w32
  | .add128 => .w128
  | .sub128 => .w128
  | .shl128 => .w128
  | .shr128 => .w128
  | .cmp128 => .w128
  | .and128 => .w128
  | .or128 => .w128
  | .not128 => .w128
  | .ctz128 => .w128
  | .clz128 => .w128

/-- The command of an operation at a width (R3: each operation exists at both widths). -/
def Instr.ofOp : Op → Width → Instr
  | .add, .w32 => .add32
  | .sub, .w32 => .sub32
  | .shl, .w32 => .shl32
  | .shr, .w32 => .shr32
  | .cmp, .w32 => .cmp32
  | .and, .w32 => .and32
  | .or, .w32 => .or32
  | .not, .w32 => .not32
  | .ctz, .w32 => .ctz32
  | .clz, .w32 => .clz32
  | .add, .w128 => .add128
  | .sub, .w128 => .sub128
  | .shl, .w128 => .shl128
  | .shr, .w128 => .shr128
  | .cmp, .w128 => .cmp128
  | .and, .w128 => .and128
  | .or, .w128 => .or128
  | .not, .w128 => .not128
  | .ctz, .w128 => .ctz128
  | .clz, .w128 => .clz128

/-- R48: NOT, CTZ and CLZ use `a` only; `b` is ignored entirely. -/
def Op.isUnary : Op → Bool
  | .add => false
  | .sub => false
  | .shl => false
  | .shr => false
  | .cmp => false
  | .and => false
  | .or => false
  | .not => true
  | .ctz => true
  | .clz => true

/-- An operand of assembler text (R56), or `Y`: the value the host read from the `y` port after the previous command
completed (R57, R58). -/
inductive AsmOperand where
  | value (n : Nat)
  | resultY
  deriving DecidableEq, Repr

/-- One command line `MNEMONIC.W a, b` of assembler text (R55); a unary command's `b` is assembled as `0`. -/
structure AsmLine where
  instr : Instr
  a : AsmOperand
  b : AsmOperand
  deriving DecidableEq, Repr

/-- The pseudo-instructions of 30_encoding.md R57. -/
inductive Pseudo where
  | mov (w : Width) (x : AsmOperand)
  | clr (w : Width)
  | inc (w : Width) (x : AsmOperand)
  | dec (w : Width) (x : AsmOperand)
  | neg (w : Width) (x : AsmOperand)
  | tst (w : Width) (x : AsmOperand)
  | pow2 (w : Width) (n : AsmOperand)
  | bitlen (w : Width) (x : AsmOperand)
  | mask (w : Width) (p : Nat)
  deriving DecidableEq, Repr

/-- One line of assembler text: a command (R55) or a pseudo-instruction (R57). -/
inductive AsmText where
  | command (l : AsmLine)
  | pseudo (p : Pseudo)
  deriving DecidableEq, Repr

end Sys2Proof
end

