-- ==== Sys2Proof/Decode.lean ====
section
/-! DEFINITION. The decoder of a command word and, after it, the encoder (30_encoding.md R44 to R53). The decoder is
total on all 256 words and names its reason for each of the 236 illegal ones (R52). -/

namespace Sys2Proof

/-- Why a command word names no operation (R50, R51). -/
inductive DecodeError where
  /-- R51: `RSVD = cmd[7:5] != 000`, whatever `OP` and `WS`. -/
  | reservedBits
  /-- R50: `OP` in `0xA` to `0xF`. -/
  | reservedOp
  deriving DecidableEq, Repr

/-- `OP = cmd[3:0]` (R44). -/
def fieldOp (cmd : Byte) : BitVec 4 := cmd.extractLsb' 0 4

/-- `WS = cmd[4]` (R44). -/
def fieldWs (cmd : Byte) : BitVec 1 := cmd.extractLsb' 4 1

/-- `RSVD = cmd[7:5]` (R44). -/
def fieldRsvd (cmd : Byte) : BitVec 3 := cmd.extractLsb' 5 3

/-- R46; `0xA` to `0xF` are reserved (R50). -/
def decodeOp (op : BitVec 4) : Option Op :=
  match op.toNat with
  | 0x0 => some .add
  | 0x1 => some .sub
  | 0x2 => some .shl
  | 0x3 => some .shr
  | 0x4 => some .cmp
  | 0x5 => some .and
  | 0x6 => some .or
  | 0x7 => some .not
  | 0x8 => some .ctz
  | 0x9 => some .clz
  | _ => none

/-- R45: `WS = 0` selects `W = 32`, `WS = 1` selects `W = 128`. -/
def decodeWidth (ws : BitVec 1) : Width :=
  if ws = 1#1 then .w128 else .w32

/-- The decoder (R47, R50, R51): the command a word names, or the reason why it names none. It matches all eight
bits. -/
def decode (cmd : Byte) : Except DecodeError Instr :=
  if fieldRsvd cmd ≠ 0#3 then .error .reservedBits
  else
    match decodeOp (fieldOp cmd) with
    | some op => .ok (Instr.ofOp op (decodeWidth (fieldWs cmd)))
    | none => .error .reservedOp

/-- The `OP` value of an operation (R46). -/
def encodeOp : Op → BitVec 4
  | .add => 0x0#4
  | .sub => 0x1#4
  | .shl => 0x2#4
  | .shr => 0x3#4
  | .cmp => 0x4#4
  | .and => 0x5#4
  | .or => 0x6#4
  | .not => 0x7#4
  | .ctz => 0x8#4
  | .clz => 0x9#4

/-- The `WS` value of a width (R45). -/
def encodeWidth : Width → BitVec 1
  | .w32 => 0#1
  | .w128 => 1#1

/-- The encoder (R55): `cmd = {000, WS, OP}`. -/
def encode (i : Instr) : Byte :=
  0#3 ++ (encodeWidth i.width ++ encodeOp i.op)

/-- The command the decoder reads from a table row's bits: a command word is one byte (R53), bit 0 its least significant
bit, and bits above `nbits` are 0. -/
def decodeTableWord (nbits w : Nat) : Option Instr :=
  (decode (BitVec.ofNat 8 (w % 2 ^ nbits))).toOption

end Sys2Proof
end

