-- ==== Sys2Proof/Config.lean ====
section
/-! DEFINITION. What one implementation of IPX-U128 fixes, and the free values of the spec.

The spec leaves two things open. `LATENCY` (00_scope.md R9) is a field of `State` (log entry 1), so that every
statement about every state is a statement about every `LATENCY`; here stands only its reference value. Every bit of
state before the first reset is an unconstrained draw (70_reset_and_hazards.md R95; 93_implementation_defined.md I8,
I9): those draws are the opaque constants below, applied to a plain counter of `State` (log entry 7). -/

namespace Sys2Proof.Config

/-- R9: "The value 1 is the reference value". -/
def referenceLatency : Nat := 1

/-- Free value (R95): what `Y` shows at the `n`-th draw before the first reset. -/
opaque powerUpY : Nat → BitVec 128

/-- Free value (R95): `C` before the first reset. -/
opaque powerUpC : Nat → Bool

/-- Free value (R95): `Z` before the first reset. -/
opaque powerUpZ : Nat → Bool

/-- Free value (R95): the two bits of `ORD` before the first reset. -/
opaque powerUpOrd : Nat → BitVec 2

/-- Free value (R95): `ERR` before the first reset. -/
opaque powerUpErr : Nat → Bool

/-- Free value (R95): `BUSY` before the first reset. -/
opaque powerUpBusy : Nat → Bool

/-- Free value (R95, R22): the latched command word before the first reset. -/
opaque powerUpCmd : Nat → BitVec 8

/-- Free value (R95, R22): the latched operand `A` before the first reset. -/
opaque powerUpA : Nat → BitVec 128

/-- Free value (R95, R22): the latched operand `B` before the first reset. -/
opaque powerUpB : Nat → BitVec 128

/-- Free value (R95): the count of edges still to come for a command in flight before the first reset. -/
opaque powerUpRemaining : Nat → Nat

end Sys2Proof.Config
end

