-- ==== Sys2Proof/Machine/State.lean ====
section
/-! DEFINITION. The state of IPX-U128 (10_state.md) as plain data, the reasons a step can stop, and the state after
reset (R26). -/

namespace Sys2Proof.Machine

/-- The comparison outcome `ORD` (10_state.md R19); its two bits are `ordBits` in Machine/Flags.lean: DESIGN CHOICE,
safe (log entry 11). -/
inductive OrdCode where
  /-- `00`: `a == b`. -/
  | eq
  /-- `01`: `a > b`. -/
  | gt
  /-- `10`: `a < b`. -/
  | lt
  /-- `11`: the last legal command was not a comparison, or none has completed since reset. -/
  | none
  deriving DecidableEq, Repr

/-- The in-flight latch (10_state.md R22): command word and operands captured at acceptance. -/
structure Latch where
  cmd : Byte
  a : Word
  b : Word
  deriving DecidableEq, Repr

/-- What the input ports carry at one rising edge of `clk` (20_memory.md R32). `secondAgent` marks an edge at which a
second agent drives the same ports (60_exceptions.md R92): DESIGN CHOICE, safe (log entry 6). -/
structure EdgeInput where
  rst : Bool
  cmdValid : Bool
  cmd : Byte
  a : Word
  b : Word
  secondAgent : Bool
  deriving DecidableEq, Repr

/-- The output ports (20_memory.md R32). -/
structure OutputPorts where
  cmdReady : Bool
  y : Word
  c : Bool
  z : Bool
  ord : BitVec 2
  err : Bool
  busy : Bool
  deriving DecidableEq, Repr

/-- The state. `y` to `latch` are the spec's (10_state.md R15, R22); `remaining` counts the edges up to and including
the completion edge of the command in flight (70_reset_and_hazards.md R99); `latencyMinusOne` is the open parameter
`LATENCY`, less one (00_scope.md R9), which no step changes; `inputs` is what the host drives on the input ports at
the coming edges, the next one first (R32, R108); `resetSeen` and `draws` are the model's own, for the unit before its
first reset (R95). -/
structure State where
  y : Word
  c : Bool
  z : Bool
  ord : OrdCode
  err : Bool
  busy : Bool
  latch : Latch
  remaining : Nat
  latencyMinusOne : Nat
  inputs : List EdgeInput
  resetSeen : Bool
  draws : Nat
  deriving DecidableEq, Repr

/-- Reasons for which a step could stop with a fault. There is NONE: no legal command raises an exception
(60_exceptions.md R84), an illegal one is a next state with `ERR = 1` (R83), and the unit cannot hang
(70_reset_and_hazards.md R109). Safe: no outcome is hidden in it (log entry 10). -/
inductive Fault where
  deriving DecidableEq, Repr

/-- Reasons for which a step gives no meaning. -/
inductive Refusal where
  /-- Raised by an arm of `exec` that has no meaning yet; no arm is left. Safe. -/
  | notModelled (mnemonic : String)
  /-- Raised by a clock edge at which a second agent drives the ports: 60_exceptions.md R92 says that a model refuses
  it. Safe. -/
  | secondAgent
  deriving DecidableEq, Repr

/-- The open parameter `LATENCY >= 1` (00_scope.md R9). -/
def State.latency (s : State) : Nat := s.latencyMinusOne + 1

/-- The state right after reset (10_state.md R26). R26 leaves the latch unspecified: zero, DESIGN CHOICE (log entry 2).
Nothing is in flight (R109). `LATENCY` is the reference value (R9; log entry 1). The host drives nothing yet
(log entry 4). -/
def State.reset : State where
  y := 0
  c := false
  z := true
  ord := .none
  err := false
  busy := false
  latch := { cmd := 0, a := 0, b := 0 }
  remaining := 0
  latencyMinusOne := Config.referenceLatency - 1
  inputs := []
  resetSeen := true
  draws := 0

end Sys2Proof.Machine
end

