-- ==== Sys2Proof/Machine/Operands.lean ====
section
/-! DEFINITION. The one operand form of the unit (30_encoding.md R48): both operands are the latched port values at the
selected width (20_memory.md R36), read as unsigned numbers (R49; pseudocode computes on naturals, 00_scope.md R11). -/

namespace Sys2Proof.Machine

/-- `m = 2^W` (00_scope.md R13). -/
def modulus (w : Width) : Nat := 2 ^ w.bits

/-- `v[W-1:0]` as a number (20_memory.md R36): the bits above `W` are ignored. -/
def atWidth (w : Width) (v : Word) : Nat := v.toNat % modulus w

/-- Operand `a` of the command in the latch, at width `w` (R13, R36). -/
def opA (w : Width) (s : State) : Nat := atWidth w s.latch.a

/-- Operand `b` of the command in the latch, at width `w` (R13, R36); for SHL and SHR it is the whole shift amount
(41_shift.md R64). -/
def opB (w : Width) (s : State) : Nat := atWidth w s.latch.b

end Sys2Proof.Machine
end

