-- ==== Sys2Proof/Machine/Flags.lean ====
section
/-! DEFINITION. Every flag computation of the spec (10_state.md R17 to R19). -/

namespace Sys2Proof.Machine

/-- The carry out of the `W`-bit sum: `C = 1` exactly when `a + b >= 2^W` (R17). -/
def carryOut (w : Width) (a b : Nat) : Bool := decide (modulus w ≤ a + b)

/-- The borrow of SUB and CMP: `C = 1` exactly when `a < b` (R17). -/
def borrow (a b : Nat) : Bool := decide (a < b)

/-- `Z <- (Y_new == 0) ? 1 : 0` (R18). -/
def zeroFlag (yNew : Word) : Bool := yNew == 0

/-- The outcome of the unsigned comparison (42_compare.md R70). -/
def compareOrd (a b : Nat) : OrdCode :=
  if a = b then .eq else if b < a then .gt else .lt

/-- The two bits of `ORD` (10_state.md R19). -/
def ordBits : OrdCode → BitVec 2
  | .eq => 0b00#2
  | .gt => 0b01#2
  | .lt => 0b10#2
  | .none => 0b11#2

/-- The outcome that two bits of `ORD` stand for (10_state.md R19). -/
def ordOfBits (v : BitVec 2) : OrdCode :=
  match v.toNat with
  | 0 => .eq
  | 1 => .gt
  | 2 => .lt
  | _ => .none

end Sys2Proof.Machine
end

