-- ==== Sys2Proof/Machine/Ops.lean ====
section
/-! DEFINITION. The shared operations over the state: what a legal command writes at completion, taking the one
exception, the acceptance and flight of a command, the reset, and the draws before the first reset. There is no
operation that returns from an exception: the unit has none (60_exceptions.md R88); only `resetUnit` clears `ERR`. -/

namespace Sys2Proof.Machine

/-- What a command computes before the writes: `res`, `c` and `ord` of `Perform` (30_encoding.md R54). -/
structure Result where
  res : Nat
  c : Bool
  ord : OrdCode
  deriving DecidableEq, Repr

/-- A result of a command that is not a comparison and has no carry: `c = 0`, `ord = 11` (R54). -/
def plainResult (res : Nat) : Result := { res := res, c := false, ord := .none }

/-- `Y <- zext_128(res); C <- c; Z <- (Y == 0); ORD <- ord` (30_encoding.md R54; 10_state.md R16 to R19). `ERR` stays
(R20). -/
def writeResult (r : Result) (s : State) : State :=
  { s with y := BitVec.ofNat 128 r.res, c := r.c, z := zeroFlag (BitVec.ofNat 128 r.res), ord := r.ord }

/-- Taking the exception `IllegalCommand` (60_exceptions.md R83, R86): `ERR <- 1` and nothing else. -/
def raiseIllegalCommand (s : State) : State := { s with err := true }

/-- The acceptance edge samples `CMD`, `A` and `B` into the in-flight latch (70_reset_and_hazards.md R97). -/
def latchCommand (cmd : Byte) (a b : Word) (s : State) : State :=
  { s with latch := { cmd := cmd, a := a, b := b } }

/-- With `LATENCY >= 2` the accepted command is in flight (R97, R99): `BUSY <- 1`, and its completion edge is
`LATENCY - 1` edges away. -/
def startFlight (s : State) : State := { s with busy := true, remaining := s.latencyMinusOne }

/-- An edge between acceptance and completion: the outputs keep their values (R100). -/
def waitEdge (s : State) : State := { s with remaining := s.remaining - 1 }

/-- `BUSY <- 0` at the completion edge (R99). -/
def endFlight (s : State) : State := { s with busy := false, remaining := 0 }

/-- A reset edge (R93): the reset values of 10_state.md R26; a command in flight is discarded (R94). The latch is
unspecified there: the value that log entry 2 names. -/
def resetUnit (s : State) : State :=
  { State.reset with latencyMinusOne := s.latencyMinusOne, inputs := s.inputs, draws := s.draws }

/-- Before the first reset every bit of state is unspecified (R95): each is drawn anew. The parameter `LATENCY` and the
host's drive are no state of the unit, and stay. -/
def drawPowerUp (s : State) : State :=
  { y := Config.powerUpY s.draws
    c := Config.powerUpC s.draws
    z := Config.powerUpZ s.draws
    ord := ordOfBits (Config.powerUpOrd s.draws)
    err := Config.powerUpErr s.draws
    busy := Config.powerUpBusy s.draws
    latch := { cmd := Config.powerUpCmd s.draws, a := Config.powerUpA s.draws, b := Config.powerUpB s.draws }
    remaining := Config.powerUpRemaining s.draws
    latencyMinusOne := s.latencyMinusOne
    inputs := s.inputs
    resetSeen := false
    draws := s.draws + 1 }

/-- The edge has consumed the sample of the ports at the head of `inputs` (20_memory.md R32). -/
def dropSample (s : State) : State := { s with inputs := s.inputs.tail }

end Sys2Proof.Machine
end

