-- ==== Sys2Proof/Machine/AddSub.lean ====
section
/-! DEFINITION. ADD and SUB at both widths (40_add_sub.md). -/

namespace Sys2Proof.Machine

/-- Wraparound addition (40_add_sub.md R59). -/
def addResult (w : Width) (a b : Nat) : Result :=
  { res := (a + b) % modulus w, c := carryOut w a b, ord := .none }

/-- Wraparound subtraction (40_add_sub.md R61): "as an integer: a - b if a >= b, else a - b + m". -/
def subResult (w : Width) (a b : Nat) : Result :=
  { res := if b ≤ a then a - b else a + modulus w - b, c := borrow a b, ord := .none }

/-- ADD.32 (40_add_sub.md R59). -/
def execAdd32 (s : State) : Host.Outcome State Fault Refusal :=
  .next (writeResult (addResult .w32 (opA .w32 s) (opB .w32 s)) s)

/-- ADD.128 (40_add_sub.md R59). -/
def execAdd128 (s : State) : Host.Outcome State Fault Refusal :=
  .next (writeResult (addResult .w128 (opA .w128 s) (opB .w128 s)) s)

/-- SUB.32 (40_add_sub.md R61). -/
def execSub32 (s : State) : Host.Outcome State Fault Refusal :=
  .next (writeResult (subResult .w32 (opA .w32 s) (opB .w32 s)) s)

/-- SUB.128 (40_add_sub.md R61). -/
def execSub128 (s : State) : Host.Outcome State Fault Refusal :=
  .next (writeResult (subResult .w128 (opA .w128 s) (opB .w128 s)) s)

end Sys2Proof.Machine
end

