-- ==== Sys2Proof/Machine/Compare.lean ====
section
/-! DEFINITION. CMP at both widths (42_compare.md). -/

namespace Sys2Proof.Machine

/-- Unsigned three-way comparison (42_compare.md R70): `res` is the outcome code as a number. -/
def cmpResult (a b : Nat) : Result :=
  { res := (ordBits (compareOrd a b)).toNat, c := borrow a b, ord := compareOrd a b }

/-- CMP.32 (42_compare.md R70). -/
def execCmp32 (s : State) : Host.Outcome State Fault Refusal :=
  .next (writeResult (cmpResult (opA .w32 s) (opB .w32 s)) s)

/-- CMP.128 (42_compare.md R70). -/
def execCmp128 (s : State) : Host.Outcome State Fault Refusal :=
  .next (writeResult (cmpResult (opA .w128 s) (opB .w128 s)) s)

end Sys2Proof.Machine
end

