-- ==== Sys2Proof/Machine/Count.lean ====
section
/-! DEFINITION. CTZ and CLZ at both widths (44_count.md). -/

namespace Sys2Proof.Machine

/-- `ctz_N(v)` (44_count.md R77): the number of trailing zero bits of `v < 2^N`; `N` for `v = 0`. -/
def ctz : Nat → Nat → Nat
  | 0, _ => 0
  | n + 1, v => if v % 2 = 1 then 0 else ctz n (v / 2) + 1

/-- `bitlen(v)` for `v < 2^N` (44_count.md R78): the least `k` with `v < 2^k`. -/
def bitlen : Nat → Nat → Nat
  | 0, _ => 0
  | n + 1, v => if v = 0 then 0 else bitlen n (v / 2) + 1

/-- `clz_N(v) = N - bitlen(v)` (44_count.md R78). -/
def clz (n v : Nat) : Nat := n - bitlen n v

/-- Count trailing zeros (44_count.md R79). -/
def ctzResult (w : Width) (a : Nat) : Result := plainResult (ctz w.bits a)

/-- Count leading zeros at the selected width (44_count.md R80). -/
def clzResult (w : Width) (a : Nat) : Result := plainResult (clz w.bits a)

/-- CTZ.32 (44_count.md R79); `b` is not read (30_encoding.md R48). -/
def execCtz32 (s : State) : Host.Outcome State Fault Refusal :=
  .next (writeResult (ctzResult .w32 (opA .w32 s)) s)

/-- CTZ.128 (44_count.md R79); `b` is not read (30_encoding.md R48). -/
def execCtz128 (s : State) : Host.Outcome State Fault Refusal :=
  .next (writeResult (ctzResult .w128 (opA .w128 s)) s)

/-- CLZ.32 (44_count.md R80); `b` is not read (30_encoding.md R48). -/
def execClz32 (s : State) : Host.Outcome State Fault Refusal :=
  .next (writeResult (clzResult .w32 (opA .w32 s)) s)

/-- CLZ.128 (44_count.md R80); `b` is not read (30_encoding.md R48). -/
def execClz128 (s : State) : Host.Outcome State Fault Refusal :=
  .next (writeResult (clzResult .w128 (opA .w128 s)) s)

end Sys2Proof.Machine
end

