-- ==== Sys2Proof/Machine/Logic.lean ====
section
/-! DEFINITION. AND, OR and NOT at both widths (43_logic.md). -/

namespace Sys2Proof.Machine

/-- Bitwise AND (43_logic.md R73). -/
def andResult (a b : Nat) : Result := plainResult (a &&& b)

/-- Bitwise inclusive OR (43_logic.md R74). -/
def orResult (a b : Nat) : Result := plainResult (a ||| b)

/-- Bitwise complement at the selected width (43_logic.md R75): `res = (m - 1) - a`. -/
def notResult (w : Width) (a : Nat) : Result := plainResult (modulus w - 1 - a)

/-- AND.32 (43_logic.md R73). -/
def execAnd32 (s : State) : Host.Outcome State Fault Refusal :=
  .next (writeResult (andResult (opA .w32 s) (opB .w32 s)) s)

/-- AND.128 (43_logic.md R73). -/
def execAnd128 (s : State) : Host.Outcome State Fault Refusal :=
  .next (writeResult (andResult (opA .w128 s) (opB .w128 s)) s)

/-- OR.32 (43_logic.md R74). -/
def execOr32 (s : State) : Host.Outcome State Fault Refusal :=
  .next (writeResult (orResult (opA .w32 s) (opB .w32 s)) s)

/-- OR.128 (43_logic.md R74). -/
def execOr128 (s : State) : Host.Outcome State Fault Refusal :=
  .next (writeResult (orResult (opA .w128 s) (opB .w128 s)) s)

/-- NOT.32 (43_logic.md R75); `b` is not read (30_encoding.md R48). -/
def execNot32 (s : State) : Host.Outcome State Fault Refusal :=
  .next (writeResult (notResult .w32 (opA .w32 s)) s)

/-- NOT.128 (43_logic.md R75); `b` is not read (30_encoding.md R48). -/
def execNot128 (s : State) : Host.Outcome State Fault Refusal :=
  .next (writeResult (notResult .w128 (opA .w128 s)) s)

end Sys2Proof.Machine
end

