-- ==== Sys2Proof/Machine/Shift.lean ====
section
/-! DEFINITION. SHL and SHR at both widths (41_shift.md). The amount is the whole operand `b` (R64). -/

namespace Sys2Proof.Machine

/-- Logical shift left (41_shift.md R65). -/
def shlResult (w : Width) (a n : Nat) : Result :=
  plainResult (if n < w.bits then a * 2 ^ n % modulus w else 0)

/-- Logical shift right (41_shift.md R67). -/
def shrResult (w : Width) (a n : Nat) : Result :=
  plainResult (if n < w.bits then a / 2 ^ n else 0)

/-- SHL.32 (41_shift.md R65). -/
def execShl32 (s : State) : Host.Outcome State Fault Refusal :=
  .next (writeResult (shlResult .w32 (opA .w32 s) (opB .w32 s)) s)

/-- SHL.128 (41_shift.md R65). -/
def execShl128 (s : State) : Host.Outcome State Fault Refusal :=
  .next (writeResult (shlResult .w128 (opA .w128 s) (opB .w128 s)) s)

/-- SHR.32 (41_shift.md R67). -/
def execShr32 (s : State) : Host.Outcome State Fault Refusal :=
  .next (writeResult (shrResult .w32 (opA .w32 s) (opB .w32 s)) s)

/-- SHR.128 (41_shift.md R67). -/
def execShr128 (s : State) : Host.Outcome State Fault Refusal :=
  .next (writeResult (shrResult .w128 (opA .w128 s) (opB .w128 s)) s)

end Sys2Proof.Machine
end

