-- ==== Sys2Proof/Machine/Dispatch.lean ====
section
/-! DEFINITION. The dispatch of a decoded command to its meaning (30_encoding.md R54, the `case` of `Perform`). -/

namespace Sys2Proof.Machine

def exec (i : Instr) (s : State) : Host.Outcome State Fault Refusal :=
  match i with
  | .add32 => Sys2Proof.Machine.execAdd32 s
  | .sub32 => Sys2Proof.Machine.execSub32 s
  | .shl32 => Sys2Proof.Machine.execShl32 s
  | .shr32 => Sys2Proof.Machine.execShr32 s
  | .cmp32 => Sys2Proof.Machine.execCmp32 s
  | .and32 => Sys2Proof.Machine.execAnd32 s
  | .or32 => Sys2Proof.Machine.execOr32 s
  | .not32 => Sys2Proof.Machine.execNot32 s
  | .ctz32 => Sys2Proof.Machine.execCtz32 s
  | .clz32 => Sys2Proof.Machine.execClz32 s
  | .add128 => Sys2Proof.Machine.execAdd128 s
  | .sub128 => Sys2Proof.Machine.execSub128 s
  | .shl128 => Sys2Proof.Machine.execShl128 s
  | .shr128 => Sys2Proof.Machine.execShr128 s
  | .cmp128 => Sys2Proof.Machine.execCmp128 s
  | .and128 => Sys2Proof.Machine.execAnd128 s
  | .or128 => Sys2Proof.Machine.execOr128 s
  | .not128 => Sys2Proof.Machine.execNot128 s
  | .ctz128 => Sys2Proof.Machine.execCtz128 s
  | .clz128 => Sys2Proof.Machine.execClz128 s

end Sys2Proof.Machine
end

