-- ==== Sys2Proof/Machine/Ports.lean ====
section
/-! DEFINITION. The ports (20_memory.md R32) and the host's interactions with them (70_reset_and_hazards.md R108). -/

namespace Sys2Proof.Machine

/-- What the host reads on the output ports (R32); reading changes nothing (10_state.md R23). `cmd_ready` is
`NOT BUSY`. -/
def outputs (s : State) : OutputPorts :=
  { cmdReady := !s.busy, y := s.y, c := s.c, z := s.z, ord := ordBits s.ord, err := s.err, busy := s.busy }

/-- An edge at which the host offers nothing. -/
def idleInput : EdgeInput :=
  { rst := false, cmdValid := false, cmd := 0, a := 0, b := 0, secondAgent := false }

/-- The host's move "offer a command" (R108): `cmd_valid = 1` with `cmd`, `a`, `b`. -/
def offerInput (cmd : Byte) (a b : Word) : EdgeInput :=
  { rst := false, cmdValid := true, cmd := cmd, a := a, b := b, secondAgent := false }

/-- The host's move "reset" (R108): `rst = 1`. -/
def resetInput : EdgeInput :=
  { rst := true, cmdValid := false, cmd := 0, a := 0, b := 0, secondAgent := false }

/-- What the next rising edge samples: the head of the host's drive, or an idle edge where the host drives nothing more
(log entry 4). -/
def portSample (s : State) : EdgeInput := s.inputs.headD idleInput

/-- `s` with `cmd` offered at the next edge on the operand ports' values, the unit ready for it, and that edge its
completion edge too (`LATENCY = 1`, the reference value of 00_scope.md R9) (log entry 5). -/
def offerNext (cmd : Byte) (s : State) : State :=
  { s with
    inputs := offerInput cmd (portSample s).a (portSample s).b :: s.inputs.tail
    busy := false
    remaining := 0
    latencyMinusOne := Config.referenceLatency - 1
    resetSeen := true }

end Sys2Proof.Machine
end

