-- ==== Sys2Proof/Machine/Cycle.lean ====
section
/-! DEFINITION. `Perform` and one rising edge of `clk` (30_encoding.md R54; 70_reset_and_hazards.md R93 to R103). -/

namespace Sys2Proof.Machine

/-- `Perform(CMD, A, B)` (30_encoding.md R54), a total function, on the latched command: the exception for a word that
names no operation (60_exceptions.md R83), the operation's meaning otherwise. -/
def perform (s : State) : Host.Outcome State Fault Refusal :=
  match decode s.latch.cmd with
  | .ok i => exec i s
  | .error _ => .next (raiseIllegalCommand s)

/-- The completion edge (R99): `BUSY <- 0` and `Perform`. -/
def complete (s : State) : Host.Outcome State Fault Refusal := perform (endFlight s)

/-- The acceptance edge (R97): the latch takes the ports; with `LATENCY = 1` it is the completion edge too, with
`LATENCY >= 2` the command is in flight (R99). -/
def accept (e : EdgeInput) (s : State) : Host.Outcome State Fault Refusal :=
  if s.latencyMinusOne = 0 then complete (latchCommand e.cmd e.a e.b s)
  else .next (startFlight (latchCommand e.cmd e.a e.b s))

/-- An edge with a command in flight: its completion edge (R99), or one before it (R100). What the host offers is not
accepted and not queued (R98), and the ports are ignored (R103). `BUSY = 1` with a count of 0, which no run reaches,
completes: DESIGN CHOICE, safe (log entry 12). -/
def flightEdge (s : State) : Host.Outcome State Fault Refusal :=
  if s.remaining ≤ 1 then complete s else .next (waitEdge s)

/-- An edge with nothing in flight (R97): a valid offer is accepted, otherwise the state stays. -/
def readyEdge (e : EdgeInput) (s : State) : Host.Outcome State Fault Refusal :=
  if e.cmdValid then accept e s else .next s

/-- A rising edge of `clk` that samples `e`. A second agent's edge is refused (60_exceptions.md R92); reset wins over
everything else (R85, R93, R94); before the first reset every bit is a draw (R95). -/
def edge (e : EdgeInput) (s : State) : Host.Outcome State Fault Refusal :=
  if e.secondAgent then .refused .secondAgent
  else if e.rst then .next (resetUnit s)
  else if s.resetSeen = false then .next (drawPowerUp s)
  else if s.busy then flightEdge s
  else readyEdge e s

/-- One rising edge of `clk`, sampling the next of the host's inputs. -/
def clockEdge (s : State) : Host.Outcome State Fault Refusal := edge (portSample s) (dropSample s)

/-- The unit after power-up, before its first reset (R95): every bit is a draw. `LATENCY`, less one, is the unit's own and
open (00_scope.md R9): any value, as the host's drive is (log entries 1, 7). -/
def powerUp (latencyMinusOne : Nat) (inputs : List EdgeInput) : State :=
  drawPowerUp { State.reset with latencyMinusOne := latencyMinusOne, inputs := inputs }

end Sys2Proof.Machine
end

