-- ==== Sys2Proof/Machine/Step.lean ====
section
/-! DEFINITION. The step: one rising edge of `clk` (20_memory.md R32: state changes only there). -/

namespace Sys2Proof.Machine

/-- One step of the machine is one rising edge of `clk` (70_reset_and_hazards.md R93 to R100); `exec` is the command-level
step of R105: DESIGN CHOICE, safe (log entry 8). -/
def step (s : State) : Host.Outcome State Fault Refusal := clockEdge s

/-- `s` with the command word `w` offered at the very next edge, which is its acceptance and its completion edge (log
entry 5). The unit fetches nothing (10_state.md R24): a command is presented on its command port. -/
def State.withFetchWord (s : State) (nbits w : Nat) : State := offerNext (BitVec.ofNat 8 (w % 2 ^ nbits)) s

end Sys2Proof.Machine
end

