-- ==== Sys2Proof/Machine/Command.lean ====
section
/-! DEFINITION. The command-level model of 70_reset_and_hazards.md R105 and its runs (R109): one step per accepted
command, plus a reset step, with no clock. -/

namespace Sys2Proof.Machine

/-- A command as the host issues it: a command word plus two operands (00_scope.md R14; 30_encoding.md R44). -/
structure Request where
  cmd : Byte
  a : Word
  b : Word
  deriving DecidableEq, Repr

/-- The steps of the command-level model (R105). -/
inductive CommandStep where
  | command (r : Request)
  | reset
  deriving DecidableEq, Repr

/-- What the host observes at a completion edge (R105, R109): `Y`, `C`, `Z`, `ORD` and `ERR`. -/
structure Visible where
  y : Word
  c : Bool
  z : Bool
  ord : OrdCode
  err : Bool
  deriving DecidableEq, Repr

/-- The visible part of a state (R105). -/
def visible (s : State) : Visible := { y := s.y, c := s.c, z := s.z, ord := s.ord, err := s.err }

/-- A command word is legal when it names an operation (30_encoding.md R47). -/
def isLegal (r : Request) : Bool := (decode r.cmd).isOk

/-- One command of the command-level model (R105): `Perform(cmd, a, b)` applied to the state. Before the first reset its
results are any values (R95; 93_implementation_defined.md I9): free ones, whatever the command (log entry 15). -/
def performRequest (r : Request) (s : State) : Host.Outcome State Fault Refusal :=
  if s.resetSeen then perform (latchCommand r.cmd r.a r.b s) else .next (drawPowerUp s)

/-- One step of the command-level model (R105). -/
def commandStep (c : CommandStep) (s : State) : Host.Outcome State Fault Refusal :=
  match c with
  | .command r => performRequest r s
  | .reset => .next (resetUnit s)

/-- A run (R109): the steps in order, each from the state that the one before it left (20_memory.md R40). R109 ends a run at
a reset; this one goes on past a reset step, as R105's sequences do: DESIGN CHOICE, unsafe
for lists with a reset step (log entry 16). -/
def runCommands : List CommandStep → State → Host.Outcome State Fault Refusal
  | [], s => .next s
  | c :: cs, s =>
    match commandStep c s with
    | .next t => runCommands cs t
    | .fault r => .fault r
    | .refused r => .refused r

/-- The last legal command since the last reset step (10_state.md R28); `last` is the one before these steps. -/
def lastLegal : List CommandStep → Option Instr → Option Instr
  | [], last => last
  | .reset :: cs, _ => lastLegal cs none
  | .command r :: cs, last =>
    match decode r.cmd with
    | .ok i => lastLegal cs (some i)
    | .error _ => lastLegal cs last

end Sys2Proof.Machine
end

