-- ==== Sys2Proof/WellFormed.lean ====
section
/-! DEFINITION. Which terms of the syntax are legal text. A command word has no operand field (30_encoding.md R49), so
every constructor of `Instr` is well formed; the spec's checks are the assembler's (R55, R56, R57). -/

namespace Sys2Proof

/-- R47, R49: each constructor names one legal command word, and a word has no further field that could be out of
range. -/
def Instr.wellFormed : Instr → Bool := fun _ => true

/-- R56: "A value must be `< 2^W`; the assembler refuses a larger one". `Y` is whatever the port held. -/
def AsmOperand.fits (w : Width) : AsmOperand → Bool
  | .value n => decide (n < 2 ^ w.bits)
  | .resultY => true

/-- R55, R56: both operands fit the width, and a unary command's `b` is assembled as `0`. -/
def AsmLine.wellFormed (l : AsmLine) : Bool :=
  l.a.fits l.instr.width && l.b.fits l.instr.width && (!l.instr.op.isUnary || l.b == .value 0)

/-- R56 for the operands of a pseudo-instruction, and R57's `0 <= p <= W` for `MASK.W p`; that text with a larger `p` is
refused is the model's: DESIGN CHOICE, unsafe (log entry 13). -/
def Pseudo.wellFormed : Pseudo → Bool
  | .mov w x => x.fits w
  | .clr _ => true
  | .inc w x => x.fits w
  | .dec w x => x.fits w
  | .neg w x => x.fits w
  | .tst w x => x.fits w
  | .pow2 w n => n.fits w
  | .bitlen w x => x.fits w
  | .mask w p => decide (p ≤ w.bits)

/-- Well-formed assembler text (R55 to R57). -/
def AsmText.wellFormed : AsmText → Bool
  | .command l => l.wellFormed
  | .pseudo p => p.wellFormed

end Sys2Proof
end

