-- ==== Sys2Proof/Machine/Assembler.lean ====
section
/-! DEFINITION. The assembler's text (30_encoding.md R55, R56), the pseudo-instructions (R57), and a straight line of
commands as the host issues it (R58). Dotted-quad text is the host's (R56; 00_scope.md R5). What the spec does not say
of blanks, of where `_` may stand and of the case of hexadecimal digits is log entry 9. -/

namespace Sys2Proof.Machine

/-- The value the host puts on a port for an operand: a numeral's value, or what it read from `y` (R57). Above a 32-bit
numeral it drives 0, which the spec does not say: DESIGN CHOICE, unsafe (log entry 14). -/
def operandValue (y : Word) : AsmOperand → Word
  | .value n => BitVec.ofNat 128 n
  | .resultY => y

/-- The command a line issues (R55), `y` being the value the host last read. -/
def lineRequest (y : Word) (l : AsmLine) : Request :=
  { cmd := encode l.instr, a := operandValue y l.a, b := operandValue y l.b }

/-- The host issues the lines in order and waits for each to complete (R58), reading `Y` in between. -/
def runLines : List AsmLine → State → Host.Outcome State Fault Refusal
  | [], s => .next s
  | l :: ls, s =>
    match performRequest (lineRequest s.y l) s with
    | .next t => runLines ls t
    | .fault r => .fault r
    | .refused r => .refused r

/-- The amount `W - p` that the host forms for `MASK.W p`; for `p > W` it is the wrapped amount (60_exceptions.md
R84): DESIGN CHOICE, unsafe (log entry 13). -/
def maskAmount (w : Width) (p : Nat) : Nat := (w.bits + (modulus w - p % modulus w)) % modulus w

/-- One command line of an operation at a width. -/
def lineOf (o : Op) (w : Width) (a b : AsmOperand) : AsmLine := { instr := Instr.ofOp o w, a := a, b := b }

/-- The expansion of each pseudo-instruction (R57). -/
def expandPseudo : Pseudo → List AsmLine
  | .mov w x => [lineOf .or w x (.value 0)]
  | .clr w => [lineOf .and w (.value 0) (.value 0)]
  | .inc w x => [lineOf .add w x (.value 1)]
  | .dec w x => [lineOf .sub w x (.value 1)]
  | .neg w x => [lineOf .sub w (.value 0) x]
  | .tst w x => [lineOf .cmp w x (.value 0)]
  | .pow2 w n => [lineOf .shl w (.value 1) n]
  | .bitlen w x => [lineOf .clz w x (.value 0), lineOf .sub w (.value w.bits) .resultY]
  | .mask w p =>
    [lineOf .shl w (.value 1) (.value (maskAmount w p)), lineOf .sub w .resultY (.value 1),
      lineOf .not w .resultY (.value 0)]

/-- The command lines of a line of text. -/
def expandText : AsmText → List AsmLine
  | .command l => [l]
  | .pseudo p => expandPseudo p

/-- The digit of a base (R56) that a character shows; a hexadecimal digit may be written in either case. -/
def digitOf (base : Nat) (c : Char) : Option Nat :=
  (List.range base).find? fun d => Nat.digitChar d == c.toLower

/-- The pieces of text between the characters `sep`. -/
def splitAtChar (sep : Char) : List Char → List (List Char)
  | [] => [[]]
  | c :: cs =>
    if c = sep then [] :: splitAtChar sep cs
    else (c :: (splitAtChar sep cs).headD []) :: (splitAtChar sep cs).tail

/-- The value of a row of digits, the most significant one first, after the value `acc` of the digits before it. -/
def digitsValue (base acc : Nat) : List Char → Option Nat
  | [] => some acc
  | c :: cs => (digitOf base c).bind fun d => digitsValue base (base * acc + d) cs

/-- The value of a numeral's digits (R56): digit groups, none of them empty, with `_` between them. -/
def groupsValue (base : Nat) (cs : List Char) : Option Nat :=
  if [] ∈ splitAtChar '_' cs then none else digitsValue base 0 (splitAtChar '_' cs).flatten

/-- A decimal numeral, or a hexadecimal one `0x...` (R56). -/
def parseNumeral : List Char → Option Nat
  | '0' :: 'x' :: cs => groupsValue 16 cs
  | cs => groupsValue 10 cs

/-- Text without the blanks around it. -/
def trimBlanks (cs : List Char) : List Char :=
  ((cs.dropWhile (· == ' ')).reverse.dropWhile (· == ' ')).reverse

/-- An operand: a numeral (R56), or `Y` (R57, R58). -/
def parseOperand (cs : List Char) : Option AsmOperand :=
  if trimBlanks cs = ['Y'] then some .resultY else (parseNumeral (trimBlanks cs)).map .value

/-- The operands of a line; none where the text after the mnemonic is blank. -/
def parseOperands (cs : List Char) : Option (List AsmOperand) :=
  if trimBlanks cs = [] then some [] else (splitAtChar ',' cs).mapM parseOperand

/-- The width suffix as it is written (R55). -/
def widthName : Width → List Char
  | .w32 => ['3', '2']
  | .w128 => ['1', '2', '8']

/-- The width suffix (R55): mandatory, there is no default width. -/
def parseWidth (cs : List Char) : Option Width := [Width.w32, .w128].find? fun w => widthName w == cs

/-- The mnemonics of R46, in capitals. -/
def opName : Op → List Char
  | .add => ['A', 'D', 'D']
  | .sub => ['S', 'U', 'B']
  | .shl => ['S', 'H', 'L']
  | .shr => ['S', 'H', 'R']
  | .cmp => ['C', 'M', 'P']
  | .and => ['A', 'N', 'D']
  | .or => ['O', 'R']
  | .not => ['N', 'O', 'T']
  | .ctz => ['C', 'T', 'Z']
  | .clz => ['C', 'L', 'Z']

/-- The operation that a mnemonic in capitals names (R46). -/
def opOfName (name : List Char) : Option Op :=
  [Op.add, .sub, .shl, .shr, .cmp, .and, .or, .not, .ctz, .clz].find? fun o => opName o == name

/-- A command line from its operation, width and operands (R55): a unary command has one operand and its `b` is
assembled as `0`. -/
def commandText (o : Op) (w : Width) (xs : List AsmOperand) : Option AsmText :=
  match o.isUnary, xs with
  | true, [a] => some (.command (lineOf o w a (.value 0)))
  | false, [a, b] => some (.command (lineOf o w a b))
  | _, _ => none

/-- A pseudo-instruction from its name, width and operands (R57). The spec does not say whether `Y` may stand as the length
of `MASK`; a numeral alone is read there: DESIGN CHOICE, unsafe (log entry 13). -/
def pseudoText (name : List Char) (w : Width) (xs : List AsmOperand) : Option AsmText :=
  match name, xs with
  | ['M', 'O', 'V'], [x] => some (.pseudo (.mov w x))
  | ['C', 'L', 'R'], [] => some (.pseudo (.clr w))
  | ['I', 'N', 'C'], [x] => some (.pseudo (.inc w x))
  | ['D', 'E', 'C'], [x] => some (.pseudo (.dec w x))
  | ['N', 'E', 'G'], [x] => some (.pseudo (.neg w x))
  | ['T', 'S', 'T'], [x] => some (.pseudo (.tst w x))
  | ['P', 'O', 'W', '2'], [n] => some (.pseudo (.pow2 w n))
  | ['B', 'I', 'T', 'L', 'E', 'N'], [x] => some (.pseudo (.bitlen w x))
  | ['M', 'A', 'S', 'K'], [.value p] => some (.pseudo (.mask w p))
  | _, _ => none

/-- The parts of a line of text: mnemonic (case-insensitive, R55), width suffix and operands. -/
def parseText (cs : List Char) : Option AsmText := do
  let text := trimBlanks cs
  let head := text.takeWhile (· != ' ')
  let name := (head.takeWhile (· != '.')).map Char.toUpper
  let w ← parseWidth ((head.dropWhile (· != '.')).drop 1)
  let xs ← parseOperands (text.dropWhile (· != ' '))
  match opOfName name with
  | some o => commandText o w xs
  | none => pseudoText name w xs

/-- One line of assembler text (R55, R56, R57): a value that does not fit the width is refused. -/
def parseLine (cs : List Char) : Option AsmText :=
  match parseText cs with
  | some t => if t.wellFormed then some t else none
  | none => none

/-- One line of assembler text, as a string. -/
def assemble (line : String) : Option AsmText := parseLine line.toList

/-- An operand as it is written (R56): in hexadecimal or in decimal, or `Y`. -/
def printOperand (hex : Bool) : AsmOperand → List Char
  | .value n => if hex then '0' :: 'x' :: Nat.toDigits 16 n else Nat.toDigits 10 n
  | .resultY => ['Y']

/-- Operands as they are written (R55), each after a blank and with a comma between them. -/
def printOperands (hex : Bool) : List AsmOperand → List Char
  | [] => []
  | [x] => ' ' :: printOperand hex x
  | x :: y :: xs => ' ' :: printOperand hex x ++ ',' :: printOperands hex (y :: xs)

/-- A line as it is written (R55, R57). -/
def printWith (hex : Bool) (name : List Char) (w : Width) (xs : List AsmOperand) : List Char :=
  name ++ '.' :: widthName w ++ printOperands hex xs

/-- A pseudo-instruction as it is written (R57). -/
def printPseudo (hex : Bool) : Pseudo → List Char
  | .mov w x => printWith hex ['M', 'O', 'V'] w [x]
  | .clr w => printWith hex ['C', 'L', 'R'] w []
  | .inc w x => printWith hex ['I', 'N', 'C'] w [x]
  | .dec w x => printWith hex ['D', 'E', 'C'] w [x]
  | .neg w x => printWith hex ['N', 'E', 'G'] w [x]
  | .tst w x => printWith hex ['T', 'S', 'T'] w [x]
  | .pow2 w n => printWith hex ['P', 'O', 'W', '2'] w [n]
  | .bitlen w x => printWith hex ['B', 'I', 'T', 'L', 'E', 'N'] w [x]
  | .mask w p => printWith hex ['M', 'A', 'S', 'K'] w [.value p]

/-- One line of assembler text as it is written (R55, R57): a unary command shows its `a` alone. -/
def printText (hex : Bool) : AsmText → List Char
  | .command l =>
    printWith hex (opName l.instr.op) l.instr.width (if l.instr.op.isUnary then [l.a] else [l.a, l.b])
  | .pseudo p => printPseudo hex p

end Sys2Proof.Machine
end

