-- ==== Sys2Proof/Machine/Bytes.lean ====
section
/-! DEFINITION. The big-endian byte view of a port value (20_memory.md R33 to R35): the host's wiring of byte buffers
onto the ports. -/

namespace Sys2Proof.Machine

/-- `BE_n(buf) = sum over i of buf[i] * 2^(8*(n-1-i))` (R33): the first byte is the most significant. -/
def beValue : List Byte → Nat
  | [] => 0
  | x :: xs => x.toNat * 2 ^ (8 * xs.length) + beValue xs

/-- `BE_n^-1(v)` (R33): the `n`-byte buffer of `v`. R33 gives it for `v < 2^(8n)` alone; for a larger `v` it is the buffer
of `v mod 2^(8n)`: DESIGN CHOICE, unsafe for such `v` (log entry 14). -/
def beBytes : Nat → Nat → List Byte
  | 0, _ => []
  | n + 1, v => BitVec.ofNat 8 (v / 2 ^ (8 * n)) :: beBytes n v

/-- A buffer's value on a port (R35): a 4-byte buffer stands in bits `[31:0]`. What the host drives above bit 31 then, and
buffers of other lengths, the spec does not say: 0 above, and the value `mod 2^128`. DESIGN CHOICE, unsafe (log
entry 14). -/
def portOfBytes (buf : List Byte) : Word := BitVec.ofNat 128 (beValue buf)

/-- The 16-byte buffer of a port value (R33). -/
def bytesOfPort (v : Word) : List Byte := beBytes 16 v.toNat

end Sys2Proof.Machine
end

