-- ==== Sys2Proof/Machine/Halves.lean ====
section
/-! DEFINITION. The two-half compositions of the 128-bit operations, as 40_add_sub.md R60 and R62, 41_shift.md R66 and
R68, 42_compare.md R71, 43_logic.md R76 and 44_count.md R81 write them. The meanings do not use them: the spec says that
their results are identical, and the claims say so of the meanings. -/

namespace Sys2Proof.Machine

/-- A 128-bit result as its two halves, each a number below `2^64`. -/
structure Halves where
  hi : Nat
  lo : Nat
  deriving DecidableEq, Repr

/-- `v = hi(v) * 2^64 + lo(v)` (00_scope.md R10). -/
def halvesValue (h : Halves) : Nat := h.hi * 2 ^ 64 + h.lo

/-- The halves of a port value (R10). -/
def halvesOf (v : Word) : Halves := { hi := (hi v).toNat, lo := (lo v).toNat }

/-- The carry from the low half into the high half (40_add_sub.md R60). -/
def addHalfCarry (a b : Word) : Nat := if 2 ^ 64 ≤ (lo a).toNat + (lo b).toNat then 1 else 0

/-- The exact sum of the high halves and the carry (40_add_sub.md R60). -/
def addHighSum (a b : Word) : Nat := (hi a).toNat + (hi b).toNat + addHalfCarry a b

/-- ADD by halves (40_add_sub.md R60). -/
def addHalves (a b : Word) : Halves :=
  { hi := addHighSum a b % 2 ^ 64, lo := ((lo a).toNat + (lo b).toNat) % 2 ^ 64 }

/-- ADD's carry by halves (40_add_sub.md R60). -/
def addHalvesCarry (a b : Word) : Bool := decide (2 ^ 64 ≤ addHighSum a b)

/-- The borrow from the high half into the low half (40_add_sub.md R62). -/
def subHalfBorrow (a b : Word) : Nat := if (lo a).toNat < (lo b).toNat then 1 else 0

/-- SUB by halves (40_add_sub.md R62); the differences are integers before `mod 2^64`. -/
def subHalves (a b : Word) : Halves :=
  { hi := ((((hi a).toNat : Int) - (hi b).toNat - subHalfBorrow a b) % 2 ^ 64).toNat
    lo := ((((lo a).toNat : Int) - (lo b).toNat) % 2 ^ 64).toNat }

/-- SUB's borrow by halves (40_add_sub.md R62). -/
def subHalvesBorrow (a b : Word) : Bool := decide ((hi a).toNat < (hi b).toNat + subHalfBorrow a b)

/-- SHL by halves (41_shift.md R66), its four cases in the spec's order. -/
def shlHalves (a : Word) (n : Nat) : Halves :=
  if n = 0 then halvesOf a
  else if n < 64 then
    { hi := ((hi a).toNat * 2 ^ n + (lo a).toNat / 2 ^ (64 - n)) % 2 ^ 64, lo := (lo a).toNat * 2 ^ n % 2 ^ 64 }
  else if n < 128 then { hi := (lo a).toNat * 2 ^ (n - 64) % 2 ^ 64, lo := 0 }
  else { hi := 0, lo := 0 }

/-- SHR by halves (41_shift.md R68), its four cases in the spec's order. -/
def shrHalves (a : Word) (n : Nat) : Halves :=
  if n = 0 then halvesOf a
  else if n < 64 then
    { hi := (hi a).toNat / 2 ^ n, lo := ((lo a).toNat / 2 ^ n + (hi a).toNat * 2 ^ (64 - n)) % 2 ^ 64 }
  else if n < 128 then { hi := 0, lo := (hi a).toNat / 2 ^ (n - 64) }
  else { hi := 0, lo := 0 }

/-- CMP by halves, high half first (42_compare.md R71). -/
def cmpHalves (a b : Word) : OrdCode :=
  if (hi b).toNat < (hi a).toNat then .gt
  else if (hi a).toNat < (hi b).toNat then .lt
  else if (lo b).toNat < (lo a).toNat then .gt
  else if (lo a).toNat < (lo b).toNat then .lt
  else .eq

/-- CTZ by halves (44_count.md R81): it crosses only when the low half is entirely zero. -/
def ctzHalves (v : Word) : Nat :=
  if (lo v).toNat ≠ 0 then ctz 64 (lo v).toNat else 64 + ctz 64 (hi v).toNat

/-- CLZ by halves (44_count.md R81): it crosses only when the high half is entirely zero. -/
def clzHalves (v : Word) : Nat :=
  if (hi v).toNat ≠ 0 then clz 64 (hi v).toNat else 64 + clz 64 (lo v).toNat

end Sys2Proof.Machine
end

