-- ==== Sys2Proof/Safety.lean ====
section
/-! DEFINITION. The terms claims are stated in: the invariants of 10_state.md R28, and the fault-free run of
70_reset_and_hazards.md R109. -/

namespace Sys2Proof.Machine

/-- The invariants of 10_state.md R28 that speak of one state: `Z = 1` exactly when `Y = 0`; where `ORD` holds an
outcome, `Y = zext_128(ORD)`, `C = 1` exactly when `ORD = 10`, and `Z = 1` exactly when `ORD = 00`. -/
def FlagsAgree (s : State) : Prop :=
  (s.z = true ↔ s.y = 0) ∧
    (s.ord ≠ .none →
      s.y = (ordBits s.ord).setWidth 128 ∧ (s.c = true ↔ s.ord = .lt) ∧ (s.z = true ↔ s.ord = .eq))

/-- The invariants of 10_state.md R28 as it states them; `last` is the last legal command since the last reset. -/
def SummaryHolds (last : Option Instr) (s : State) : Prop :=
  (s.z = true ↔ s.y = 0) ∧
    (∀ i, last = some i → i.width = .w32 → s.y.extractLsb' 32 96 = 0) ∧
    (s.ord ≠ .none ↔ ∃ i, last = some i ∧ i.op = .cmp) ∧
    (∀ i, last = some i → i.op = .cmp →
      s.y = (ordBits s.ord).setWidth 128 ∧ (s.c = true ↔ s.ord = .lt) ∧ (s.z = true ↔ s.ord = .eq))

/-- A command in flight has between 1 and `LATENCY - 1` edges to come; nothing else is counted
(70_reset_and_hazards.md R99). With `LATENCY = 1` it says that `BUSY` is never 1 (10_state.md R21). -/
def FlightInRange (s : State) : Prop :=
  (s.busy = true → 1 ≤ s.remaining ∧ s.remaining ≤ s.latencyMinusOne) ∧ (s.busy = false → s.remaining = 0)

/-- The invariant of every state after the first reset. -/
def Inv (s : State) : Prop := s.resetSeen = true ∧ FlagsAgree s ∧ FlightInRange s

/-- R109: a run whose end state has `ERR = 1` has recorded a fault; any other run is fault-free. A reset within a run is
outside R109's definition; here the run goes on and its end state alone counts, so that an illegal command before a
reset step leaves it fault-free: DESIGN CHOICE, unsafe for runs with a reset step (log entry 16). -/
def faultFree (cs : List CommandStep) (s : State) : Bool :=
  match runCommands cs s with
  | .next t => !t.err
  | .fault _ => false
  | .refused _ => false

/-- The completing edge of a legal command changes `Y`, `C`, `Z` and `ORD` alone (10_state.md R27): `t` is `s` but for
these four. -/
def OnlyResults (s t : State) : Prop := t = { s with y := t.y, c := t.c, z := t.z, ord := t.ord }

/-- The command-level steps (R105) that the coming edge of a unit after its first reset completes: a reset, the command in flight at its completion
edge, an accepted command with `LATENCY = 1`; none at any other edge (R99, R100). -/
def edgeSteps (s : State) : List CommandStep :=
  if (portSample s).rst then [.reset]
  else if s.busy then
    (if s.remaining ≤ 1 then [.command { cmd := s.latch.cmd, a := s.latch.a, b := s.latch.b }] else [])
  else if (portSample s).cmdValid && s.latencyMinusOne == 0 then
    [.command { cmd := (portSample s).cmd, a := (portSample s).a, b := (portSample s).b }]
  else []

/-- The command-level steps that the next `k` edges complete, in order (R105). -/
def completedSteps : Nat → State → List CommandStep
  | 0, _ => []
  | k + 1, s =>
    match step s with
    | .next t => edgeSteps s ++ completedSteps k t
    | .fault _ => []
    | .refused _ => []

/-- Every bit of the unit is the free value of the `n`-th draw, as before the first reset
(70_reset_and_hazards.md R95). -/
def DrawnAt (n : Nat) (t : State) : Prop :=
  t.y = Config.powerUpY n ∧ t.c = Config.powerUpC n ∧ t.z = Config.powerUpZ n ∧
    t.ord = ordOfBits (Config.powerUpOrd n) ∧ t.err = Config.powerUpErr n ∧ t.busy = Config.powerUpBusy n ∧
    t.latch = { cmd := Config.powerUpCmd n, a := Config.powerUpA n, b := Config.powerUpB n } ∧
    t.remaining = Config.powerUpRemaining n

/-- A sample without a reset and with no second agent: whatever the host offers, the unit runs on. -/
abbrev Quiet (e : EdgeInput) : Prop := e.rst = false ∧ e.secondAgent = false

end Sys2Proof.Machine
end

