-- ==== Sys2Proof/Certificates/Slice0/Obligations.lean ====
section
/-! DEFINITION. The statements for the provers, each from the rules of spec/ that its docstring names. -/

open Sys2Proof Sys2Proof.Machine

/-! ### The encoding (30_encoding.md) -/

/-- Words of R47's table written out bit by bit, one or more of each family, and three illegal ones (R50, R51). -/
def Obligations.KnownWordsDecode : Prop :=
  decode 0b00000000#8 = .ok .add32 ∧ decode 0b00010001#8 = .ok .sub128 ∧
    decode 0b00000010#8 = .ok .shl32 ∧ decode 0b00010011#8 = .ok .shr128 ∧
    decode 0b00010100#8 = .ok .cmp128 ∧ decode 0b00000101#8 = .ok .and32 ∧
    decode 0b00010110#8 = .ok .or128 ∧ decode 0b00000111#8 = .ok .not32 ∧
    decode 0b00001000#8 = .ok .ctz32 ∧ decode 0b00011001#8 = .ok .clz128 ∧
    decode 0b00001010#8 = .error .reservedOp ∧ decode 0b00011111#8 = .error .reservedOp ∧
    decode 0b00100000#8 = .error .reservedBits

/-- R44, R55: the word of every well-formed command decodes to that command, as a word of the opcode table too. -/
def Obligations.DecodeOfEncode : Prop :=
  ∀ i : Instr, i.wellFormed = true → decode (encode i) = .ok i ∧ decodeTableWord 8 (encode i).toNat = some i

/-- R47: the legal words are exactly the twenty of its table; a decoder matches all eight bits. -/
def Obligations.LegalWordsAreTheEncodings : Prop :=
  (∀ (cmd : Byte) (i : Instr), decode cmd = .ok i ↔ cmd = encode i) ∧
    encode .add32 = 0x00#8 ∧ encode .sub32 = 0x01#8 ∧ encode .shl32 = 0x02#8 ∧ encode .shr32 = 0x03#8 ∧
    encode .cmp32 = 0x04#8 ∧ encode .and32 = 0x05#8 ∧ encode .or32 = 0x06#8 ∧ encode .not32 = 0x07#8 ∧
    encode .ctz32 = 0x08#8 ∧ encode .clz32 = 0x09#8 ∧ encode .add128 = 0x10#8 ∧ encode .sub128 = 0x11#8 ∧
    encode .shl128 = 0x12#8 ∧ encode .shr128 = 0x13#8 ∧ encode .cmp128 = 0x14#8 ∧ encode .and128 = 0x15#8 ∧
    encode .or128 = 0x16#8 ∧ encode .not128 = 0x17#8 ∧ encode .ctz128 = 0x18#8 ∧ encode .clz128 = 0x19#8

/-- R50, R51: a word with a reserved `OP`, or with `RSVD != 000` whatever its `OP` and `WS`, raises `IllegalCommand`
(`ERR <- 1`) and has no other effect. -/
def Obligations.IllegalWordSetsErrOnly : Prop :=
  ∀ s : State, fieldRsvd s.latch.cmd ≠ 0#3 ∨ 10 ≤ (fieldOp s.latch.cmd).toNat →
    perform s = .next { s with err := true }

/-! ### What each command writes (40_add_sub.md to 44_count.md)

Each statement gives the command words, the next state of `exec`, the values written, and the frame: `OnlyResults s t`
says that nothing but `Y`, `C`, `Z` and `ORD` differs from `s`. `exec` is the function `Perform` of R54; before the first
reset no step applies it (log entry 15). -/

/-- R59: wraparound addition at both widths. -/
def Obligations.AddWrapsAndCarries : Prop :=
  encode .add32 = 0x00#8 ∧ encode .add128 = 0x10#8 ∧
    (∀ s : State, ∃ t, exec .add32 s = .next t ∧ OnlyResults s t ∧
      t.y.toNat = (s.latch.a.toNat % 2 ^ 32 + s.latch.b.toNat % 2 ^ 32) % 2 ^ 32 ∧
      (t.c = true ↔ 2 ^ 32 ≤ s.latch.a.toNat % 2 ^ 32 + s.latch.b.toNat % 2 ^ 32) ∧
      (t.z = true ↔ t.y = 0) ∧ t.ord = .none) ∧
    (∀ s : State, ∃ t, exec .add128 s = .next t ∧ OnlyResults s t ∧
      t.y.toNat = (s.latch.a.toNat + s.latch.b.toNat) % 2 ^ 128 ∧
      (t.c = true ↔ 2 ^ 128 ≤ s.latch.a.toNat + s.latch.b.toNat) ∧ (t.z = true ↔ t.y = 0) ∧ t.ord = .none)

/-- R61: wraparound subtraction at both widths, the difference taken as an integer. -/
def Obligations.SubWrapsAndBorrows : Prop :=
  encode .sub32 = 0x01#8 ∧ encode .sub128 = 0x11#8 ∧
    (∀ s : State, ∃ t, exec .sub32 s = .next t ∧ OnlyResults s t ∧
      (t.y.toNat : Int) = ((s.latch.a.toNat % 2 ^ 32 : Nat) - (s.latch.b.toNat % 2 ^ 32 : Nat) : Int) % 2 ^ 32 ∧
      (t.c = true ↔ s.latch.a.toNat % 2 ^ 32 < s.latch.b.toNat % 2 ^ 32) ∧
      (t.z = true ↔ t.y = 0) ∧ t.ord = .none) ∧
    (∀ s : State, ∃ t, exec .sub128 s = .next t ∧ OnlyResults s t ∧
      (t.y.toNat : Int) = ((s.latch.a.toNat : Int) - s.latch.b.toNat) % 2 ^ 128 ∧
      (t.c = true ↔ s.latch.a.toNat < s.latch.b.toNat) ∧ (t.z = true ↔ t.y = 0) ∧ t.ord = .none)

/-- R65: logical shift left; the amount is the whole operand `b` (R64), and every amount of `W` or more gives 0. -/
def Obligations.ShlShiftsOrClears : Prop :=
  encode .shl32 = 0x02#8 ∧ encode .shl128 = 0x12#8 ∧
    (∀ s : State, ∃ t, exec .shl32 s = .next t ∧ OnlyResults s t ∧
      (s.latch.b.toNat % 2 ^ 32 < 32 →
        t.y.toNat = s.latch.a.toNat % 2 ^ 32 * 2 ^ (s.latch.b.toNat % 2 ^ 32) % 2 ^ 32) ∧
      (32 ≤ s.latch.b.toNat % 2 ^ 32 → t.y = 0) ∧ t.c = false ∧ (t.z = true ↔ t.y = 0) ∧ t.ord = .none) ∧
    (∀ s : State, ∃ t, exec .shl128 s = .next t ∧ OnlyResults s t ∧
      (s.latch.b.toNat < 128 → t.y.toNat = s.latch.a.toNat * 2 ^ s.latch.b.toNat % 2 ^ 128) ∧
      (128 ≤ s.latch.b.toNat → t.y = 0) ∧ t.c = false ∧ (t.z = true ↔ t.y = 0) ∧ t.ord = .none)

/-- R67: logical shift right; zeros enter at the top, and every amount of `W` or more gives 0. -/
def Obligations.ShrShiftsOrClears : Prop :=
  encode .shr32 = 0x03#8 ∧ encode .shr128 = 0x13#8 ∧
    (∀ s : State, ∃ t, exec .shr32 s = .next t ∧ OnlyResults s t ∧
      (s.latch.b.toNat % 2 ^ 32 < 32 →
        t.y.toNat = s.latch.a.toNat % 2 ^ 32 / 2 ^ (s.latch.b.toNat % 2 ^ 32)) ∧
      (32 ≤ s.latch.b.toNat % 2 ^ 32 → t.y = 0) ∧ t.c = false ∧ (t.z = true ↔ t.y = 0) ∧ t.ord = .none) ∧
    (∀ s : State, ∃ t, exec .shr128 s = .next t ∧ OnlyResults s t ∧
      (s.latch.b.toNat < 128 → t.y.toNat = s.latch.a.toNat / 2 ^ s.latch.b.toNat) ∧
      (128 ≤ s.latch.b.toNat → t.y = 0) ∧ t.c = false ∧ (t.z = true ↔ t.y = 0) ∧ t.ord = .none)

/-- R70: unsigned three-way comparison; `Y` is the outcome code as a number. -/
def Obligations.CmpReportsTheOrder : Prop :=
  encode .cmp32 = 0x04#8 ∧ encode .cmp128 = 0x14#8 ∧
    (∀ s : State, ∃ t, exec .cmp32 s = .next t ∧ OnlyResults s t ∧
      (s.latch.a.toNat % 2 ^ 32 = s.latch.b.toNat % 2 ^ 32 → t.ord = .eq) ∧
      (s.latch.b.toNat % 2 ^ 32 < s.latch.a.toNat % 2 ^ 32 → t.ord = .gt) ∧
      (s.latch.a.toNat % 2 ^ 32 < s.latch.b.toNat % 2 ^ 32 → t.ord = .lt) ∧
      t.y = (ordBits t.ord).setWidth 128 ∧
      (t.c = true ↔ s.latch.a.toNat % 2 ^ 32 < s.latch.b.toNat % 2 ^ 32) ∧ (t.z = true ↔ t.y = 0)) ∧
    (∀ s : State, ∃ t, exec .cmp128 s = .next t ∧ OnlyResults s t ∧
      (s.latch.a = s.latch.b → t.ord = .eq) ∧
      (s.latch.b.toNat < s.latch.a.toNat → t.ord = .gt) ∧
      (s.latch.a.toNat < s.latch.b.toNat → t.ord = .lt) ∧
      t.y = (ordBits t.ord).setWidth 128 ∧
      (t.c = true ↔ s.latch.a.toNat < s.latch.b.toNat) ∧ (t.z = true ↔ t.y = 0))

/-- R73: bitwise AND, bit by bit at the selected width. -/
def Obligations.AndIsBitwise : Prop :=
  encode .and32 = 0x05#8 ∧ encode .and128 = 0x15#8 ∧
    (∀ s : State, ∃ t, exec .and32 s = .next t ∧ OnlyResults s t ∧
      (∀ i < 32, t.y.getLsbD i = (s.latch.a.getLsbD i && s.latch.b.getLsbD i)) ∧
      (∀ i, 32 ≤ i → t.y.getLsbD i = false) ∧ t.c = false ∧ (t.z = true ↔ t.y = 0) ∧ t.ord = .none) ∧
    (∀ s : State, ∃ t, exec .and128 s = .next t ∧ OnlyResults s t ∧
      (∀ i < 128, t.y.getLsbD i = (s.latch.a.getLsbD i && s.latch.b.getLsbD i)) ∧
      t.c = false ∧ (t.z = true ↔ t.y = 0) ∧ t.ord = .none)

/-- R74: bitwise inclusive OR, bit by bit at the selected width. -/
def Obligations.OrIsBitwise : Prop :=
  encode .or32 = 0x06#8 ∧ encode .or128 = 0x16#8 ∧
    (∀ s : State, ∃ t, exec .or32 s = .next t ∧ OnlyResults s t ∧
      (∀ i < 32, t.y.getLsbD i = (s.latch.a.getLsbD i || s.latch.b.getLsbD i)) ∧
      (∀ i, 32 ≤ i → t.y.getLsbD i = false) ∧ t.c = false ∧ (t.z = true ↔ t.y = 0) ∧ t.ord = .none) ∧
    (∀ s : State, ∃ t, exec .or128 s = .next t ∧ OnlyResults s t ∧
      (∀ i < 128, t.y.getLsbD i = (s.latch.a.getLsbD i || s.latch.b.getLsbD i)) ∧
      t.c = false ∧ (t.z = true ↔ t.y = 0) ∧ t.ord = .none)

/-- R75: bitwise complement at the selected width, bit by bit; `b` has no effect. -/
def Obligations.NotComplementsTheWidth : Prop :=
  encode .not32 = 0x07#8 ∧ encode .not128 = 0x17#8 ∧
    (∀ s : State, ∃ t, exec .not32 s = .next t ∧ OnlyResults s t ∧
      (∀ i < 32, t.y.getLsbD i = !s.latch.a.getLsbD i) ∧
      (∀ i, 32 ≤ i → t.y.getLsbD i = false) ∧ t.c = false ∧ (t.z = true ↔ t.y = 0) ∧ t.ord = .none) ∧
    (∀ s : State, ∃ t, exec .not128 s = .next t ∧ OnlyResults s t ∧
      (∀ i < 128, t.y.getLsbD i = !s.latch.a.getLsbD i) ∧
      t.c = false ∧ (t.z = true ↔ t.y = 0) ∧ t.ord = .none)

/-- R77, R79: CTZ answers the least index of a set bit of `a` at the selected width, `W` for zero; `Z = 1` exactly when
`a` is odd. -/
def Obligations.CtzFindsTheLowestOne : Prop :=
  encode .ctz32 = 0x08#8 ∧ encode .ctz128 = 0x18#8 ∧
    (∀ s : State, ∃ t, exec .ctz32 s = .next t ∧ OnlyResults s t ∧
      (s.latch.a.toNat % 2 ^ 32 = 0 → t.y = 32) ∧
      (s.latch.a.toNat % 2 ^ 32 ≠ 0 →
        t.y.toNat < 32 ∧ s.latch.a.getLsbD t.y.toNat = true ∧
          (∀ j < t.y.toNat, s.latch.a.getLsbD j = false) ∧
          2 ^ t.y.toNat ∣ s.latch.a.toNat % 2 ^ 32 ∧
          ∀ k, 2 ^ k ∣ s.latch.a.toNat % 2 ^ 32 → k ≤ t.y.toNat) ∧
      t.c = false ∧ (t.z = true ↔ t.y = 0) ∧ (t.z = true ↔ s.latch.a.getLsbD 0 = true) ∧ t.ord = .none) ∧
    (∀ s : State, ∃ t, exec .ctz128 s = .next t ∧ OnlyResults s t ∧
      (s.latch.a = 0 → t.y = 128) ∧
      (s.latch.a ≠ 0 →
        t.y.toNat < 128 ∧ s.latch.a.getLsbD t.y.toNat = true ∧
          (∀ j < t.y.toNat, s.latch.a.getLsbD j = false) ∧
          2 ^ t.y.toNat ∣ s.latch.a.toNat ∧ ∀ k, 2 ^ k ∣ s.latch.a.toNat → k ≤ t.y.toNat) ∧
      t.c = false ∧ (t.z = true ↔ t.y = 0) ∧ (t.z = true ↔ s.latch.a.getLsbD 0 = true) ∧ t.ord = .none)

/-- R78, R80: CLZ answers `W - k` for the least `k` with `a < 2^k`, so `W` for zero; `Z = 1` exactly when bit `W-1` of
`a` is set. -/
def Obligations.ClzCountsAboveTheTopOne : Prop :=
  encode .clz32 = 0x09#8 ∧ encode .clz128 = 0x19#8 ∧
    (∀ s : State, ∃ t, exec .clz32 s = .next t ∧ OnlyResults s t ∧
      t.y.toNat ≤ 32 ∧ s.latch.a.toNat % 2 ^ 32 < 2 ^ (32 - t.y.toNat) ∧
      (∀ k, s.latch.a.toNat % 2 ^ 32 < 2 ^ k → 32 - t.y.toNat ≤ k) ∧
      t.c = false ∧ (t.z = true ↔ t.y = 0) ∧ (t.z = true ↔ s.latch.a.getLsbD 31 = true) ∧ t.ord = .none) ∧
    (∀ s : State, ∃ t, exec .clz128 s = .next t ∧ OnlyResults s t ∧
      t.y.toNat ≤ 128 ∧ s.latch.a.toNat < 2 ^ (128 - t.y.toNat) ∧
      (∀ k, s.latch.a.toNat < 2 ^ k → 128 - t.y.toNat ≤ k) ∧
      t.c = false ∧ (t.z = true ↔ t.y = 0) ∧ (t.z = true ↔ s.latch.a.getLsbD 127 = true) ∧ t.ord = .none)

/-! ### The two-half compositions at `W = 128` -/

/-- R60: ADD.128 equals the two-half composition with carry propagation, `C` included. -/
def Obligations.AddEqualsItsHalves : Prop :=
  ∀ s : State, ∃ t, exec .add128 s = .next t ∧
    halvesOf t.y = addHalves s.latch.a s.latch.b ∧ t.c = addHalvesCarry s.latch.a s.latch.b

/-- R62: SUB.128 equals the two-half composition with borrow propagation, `C` included. -/
def Obligations.SubEqualsItsHalves : Prop :=
  ∀ s : State, ∃ t, exec .sub128 s = .next t ∧
    halvesOf t.y = subHalves s.latch.a s.latch.b ∧ t.c = subHalvesBorrow s.latch.a s.latch.b

/-- R66: SHL.128 equals the four cases of the two-half composition, and the formula of `0 < n < 64` also holds at
`n = 0`. -/
def Obligations.ShlEqualsItsHalves : Prop :=
  (∀ s : State, ∃ t, exec .shl128 s = .next t ∧ halvesOf t.y = shlHalves s.latch.a s.latch.b.toNat) ∧
    ∀ a : Word, halvesOf a =
      { hi := ((hi a).toNat * 2 ^ 0 + (lo a).toNat / 2 ^ (64 - 0)) % 2 ^ 64, lo := (lo a).toNat * 2 ^ 0 % 2 ^ 64 }

/-- R68: SHR.128 equals the four cases of the two-half composition, the mirror of R66. -/
def Obligations.ShrEqualsItsHalves : Prop :=
  ∀ s : State, ∃ t, exec .shr128 s = .next t ∧ halvesOf t.y = shrHalves s.latch.a s.latch.b.toNat

/-- R71: CMP.128 equals the high-half-major comparison, which is the comparison of 128-bit unsigned integers. -/
def Obligations.CmpEqualsItsHalves : Prop :=
  ∀ s : State, ∃ t, exec .cmp128 s = .next t ∧ t.ord = cmpHalves s.latch.a s.latch.b ∧
    t.ord = compareOrd s.latch.a.toNat s.latch.b.toNat

/-- R76: AND, OR and NOT at `W = 128` are per-half; no bit crosses the half boundary, so they are the bitwise operations
on the whole value. -/
def Obligations.LogicIsPerHalf : Prop :=
  (∀ s : State, ∃ t, exec .and128 s = .next t ∧ hi t.y = hi s.latch.a &&& hi s.latch.b ∧
      lo t.y = lo s.latch.a &&& lo s.latch.b ∧ t.y = s.latch.a &&& s.latch.b) ∧
    (∀ s : State, ∃ t, exec .or128 s = .next t ∧ hi t.y = hi s.latch.a ||| hi s.latch.b ∧
      lo t.y = lo s.latch.a ||| lo s.latch.b ∧ t.y = s.latch.a ||| s.latch.b) ∧
    (∀ s : State, ∃ t, exec .not128 s = .next t ∧ hi t.y = ~~~(hi s.latch.a) ∧
      lo t.y = ~~~(lo s.latch.a) ∧ t.y = ~~~s.latch.a)

/-- R81, its composition: the counts at `W = 128` cross the half boundary only when the nearer half is entirely
zero. -/
def Obligations.CountsEqualTheirHalves : Prop :=
  (∀ s : State, ∃ t, exec .ctz128 s = .next t ∧ t.y.toNat = ctzHalves s.latch.a) ∧
    ∀ s : State, ∃ t, exec .clz128 s = .next t ∧ t.y.toNat = clzHalves s.latch.a

/-! ### Laws, over the host's sequences of commands

They hold of a unit after its first reset; before it every result is any value (R95), which
BeforeTheFirstResetEveryBitIsDrawn states. -/

/-- R63, its six laws, at every width and for all operands of that width. -/
def Obligations.AddSubLaws : Prop :=
  ∀ (w : Width) (a b : Nat) (s : State), s.resetSeen = true → a < 2 ^ w.bits → b < 2 ^ w.bits →
    (∃ t, runLines [lineOf .add w (.value a) (.value b)] s = .next t ∧
      (t.c = true ↔ t.y.toNat < a) ∧ (t.c = true ↔ t.y.toNat < b)) ∧
    (∃ t, runLines [lineOf .sub w (.value a) (.value b)] s = .next t ∧ (t.c = true ↔ a < t.y.toNat) ∧
      (b = 0 → t.c = false)) ∧
    (∃ t, runLines [lineOf .sub w (.value a) (.value b), lineOf .add w .resultY (.value b)] s = .next t ∧
      t.y.toNat = a) ∧
    (∃ t, runLines [lineOf .add w (.value a) (.value b), lineOf .sub w .resultY (.value b)] s = .next t ∧
      t.y.toNat = a) ∧
    (∃ t u, runLines [lineOf .add w (.value a) (.value b)] s = .next t ∧
      runLines [lineOf .add w (.value b) (.value a)] s = .next u ∧ t.y = u.y) ∧
    (∀ c < 2 ^ w.bits, ∃ t u,
      runLines [lineOf .add w (.value a) (.value b), lineOf .add w .resultY (.value c)] s = .next t ∧
      runLines [lineOf .add w (.value b) (.value c), lineOf .add w (.value a) .resultY] s = .next u ∧
      t.y = u.y) ∧
    (∃ t, runLines [lineOf .add w (.value a) (.value 0)] s = .next t ∧ t.y.toNat = a ∧ t.c = false ∧
      (t.z = true ↔ a = 0)) ∧
    (∃ t u, runLines [lineOf .sub w (.value a) (.value b)] s = .next t ∧
      runLines [lineOf .cmp w (.value a) (.value b)] s = .next u ∧ (t.c = true ↔ u.ord = .lt)) ∧
    ∃ t, runLines [lineOf .shl w (.value 1) (.value w.bits), lineOf .add w (.value a) .resultY] s = .next t ∧
      t.y.toNat = a ∧ t.c = false ∧ (t.z = true ↔ a = 0)

/-- R69, its five laws, at every width and for every operand and amount of that width. -/
def Obligations.ShiftLaws : Prop :=
  ∀ (w : Width) (a n : Nat) (s : State), s.resetSeen = true → a < 2 ^ w.bits → n < 2 ^ w.bits →
    (∃ t, runLines [lineOf .shl w (.value a) (.value n)] s = .next t ∧ t.y.toNat = a * 2 ^ n % 2 ^ w.bits) ∧
    (∃ t, runLines [lineOf .shr w (.value a) (.value n)] s = .next t ∧ t.y.toNat = a / 2 ^ n) ∧
    (∃ t, runLines (expandPseudo (.pow2 w (.value n))) s = .next t ∧
      t.y.toNat = if n < w.bits then 2 ^ n else 0) ∧
    (∀ p ≤ w.bits,
      expandPseudo (.mask w p) =
          [lineOf .shl w (.value 1) (.value (w.bits - p)), lineOf .sub w .resultY (.value 1),
            lineOf .not w .resultY (.value 0)] ∧
        ∃ t, runLines (expandPseudo (.mask w p)) s = .next t ∧ t.y.toNat = 2 ^ w.bits - 2 ^ (w.bits - p)) ∧
    (n < w.bits →
      ∃ t, runLines [lineOf .shl w (.value a) (.value n), lineOf .shr w .resultY (.value n)] s = .next t ∧
        t.y.toNat = a % 2 ^ (w.bits - n))

/-- R72, its five laws: trichotomy, the mirror, transitivity, agreement with SUB's borrow, and the host's loop tests. -/
def Obligations.CompareLaws : Prop :=
  ∀ (w : Width) (a b : Nat) (s : State), s.resetSeen = true → a < 2 ^ w.bits → b < 2 ^ w.bits →
    (∃ t, runLines [lineOf .cmp w (.value a) (.value b)] s = .next t ∧
      (t.ord = .eq ∨ t.ord = .gt ∨ t.ord = .lt) ∧
      (t.ord = .eq ∨ t.ord = .lt ↔ a ≤ b) ∧ (t.ord = .lt ↔ a < b) ∧ (t.ord = .gt ↔ b < a)) ∧
    (∃ t, runLines [lineOf .cmp w (.value a) (.value a)] s = .next t ∧ t.ord = .eq) ∧
    (∃ t u, runLines [lineOf .cmp w (.value a) (.value b)] s = .next t ∧
      runLines [lineOf .cmp w (.value b) (.value a)] s = .next u ∧ (t.ord = .gt ↔ u.ord = .lt)) ∧
    (∀ c < 2 ^ w.bits, ∃ t u v, runLines [lineOf .cmp w (.value a) (.value b)] s = .next t ∧
      runLines [lineOf .cmp w (.value b) (.value c)] s = .next u ∧
      runLines [lineOf .cmp w (.value a) (.value c)] s = .next v ∧
      (t.ord = .lt → u.ord = .lt → v.ord = .lt)) ∧
    (∃ t u, runLines [lineOf .cmp w (.value a) (.value b)] s = .next t ∧
      runLines [lineOf .sub w (.value a) (.value b)] s = .next u ∧ (t.ord = .lt ↔ u.c = true))

/-- R81, its five laws of the counts, at every width, each over the commands that compute them. -/
def Obligations.CountLaws : Prop :=
  ∀ (w : Width) (x : Nat) (s : State), s.resetSeen = true → x < 2 ^ w.bits →
    (∃ t, runLines (expandPseudo (.bitlen w (.value x))) s = .next t ∧
      x < 2 ^ t.y.toNat ∧ ∀ k, x < 2 ^ k → t.y.toNat ≤ k) ∧
    (x ≠ 0 → ∃ t, runLines [lineOf .clz w (.value x) (.value 0)] s = .next t ∧
      Nat.log2 x + t.y.toNat = w.bits - 1) ∧
    (∀ k ≤ w.bits, ∃ t, runLines [lineOf .ctz w (.value x) (.value 0)] s = .next t ∧
      (2 ^ k ∣ x ↔ k ≤ t.y.toNat)) ∧
    (∃ t, runLines [lineOf .not w (.value x) (.value 0), lineOf .clz w .resultY (.value 0)] s = .next t ∧
      t.y.toNat ≤ w.bits ∧ (∀ j < t.y.toNat, x.testBit (w.bits - 1 - j) = true) ∧
      (t.y.toNat < w.bits → x.testBit (w.bits - 1 - t.y.toNat) = false) ∧
      ∀ p ≤ w.bits, x = 2 ^ w.bits - 2 ^ (w.bits - p) → t.y.toNat = p) ∧
    (∃ t u, runLines [lineOf .ctz w (.value x) (.value 0)] s = .next t ∧
      runLines [lineOf .clz w (.value x) (.value 0)] s = .next u ∧
      (t.y.toNat = w.bits ↔ x = 0) ∧ (u.y.toNat = w.bits ↔ x = 0))

/-! ### The rules of the state (10_state.md), over all commands -/

/-- R16: every legal command writes `Y` with its result zero-extended, so after `W = 32` the bits above 31 are 0; an
illegal command does not write `Y`, and the host reads `Y` on the `y` port. -/
def Obligations.ResultRegisterRule : Prop :=
  (∀ (i : Instr) (s : State), ∃ t, exec i s = .next t ∧ (i.width = .w32 → t.y.extractLsb' 32 96 = 0) ∧
      (outputs t).y = t.y) ∧
    ∀ (s : State) (e : DecodeError), decode s.latch.cmd = .error e → ∃ t, perform s = .next t ∧ t.y = s.y

/-- R17: the carry flag of every legal command. -/
def Obligations.CarryFlagRule : Prop :=
  ∀ (i : Instr) (s : State), ∃ t, exec i s = .next t ∧
    (i.op = .add →
      (t.c = true ↔ 2 ^ i.width.bits ≤ s.latch.a.toNat % 2 ^ i.width.bits + s.latch.b.toNat % 2 ^ i.width.bits)) ∧
    (i.op = .sub ∨ i.op = .cmp →
      (t.c = true ↔ s.latch.a.toNat % 2 ^ i.width.bits < s.latch.b.toNat % 2 ^ i.width.bits)) ∧
    (i.op ≠ .add → i.op ≠ .sub → i.op ≠ .cmp → t.c = false)

/-- R18: every legal command writes `Z <- (Y_new == 0)`; an illegal command does not write `Z`. -/
def Obligations.ZeroFlagRule : Prop :=
  (∀ (i : Instr) (s : State), ∃ t, exec i s = .next t ∧ (t.z = true ↔ t.y = 0)) ∧
    ∀ (s : State) (e : DecodeError), decode s.latch.cmd = .error e → ∃ t, perform s = .next t ∧ t.z = s.z

/-- R19: the encodings of `ORD`; CMP writes `00`, `01` or `10`, every other legal command `11`, an illegal command does
not write it, and it is `11` after reset. -/
def Obligations.OrdFieldRule : Prop :=
  ordBits .eq = 0b00#2 ∧ ordBits .gt = 0b01#2 ∧ ordBits .lt = 0b10#2 ∧ ordBits .none = 0b11#2 ∧
    State.reset.ord = .none ∧
    (∀ (i : Instr) (s : State), ∃ t, exec i s = .next t ∧ (outputs t).ord = ordBits t.ord ∧
      (i.op = .cmp →
        (t.ord = .eq ↔ s.latch.a.toNat % 2 ^ i.width.bits = s.latch.b.toNat % 2 ^ i.width.bits) ∧
        (t.ord = .gt ↔ s.latch.b.toNat % 2 ^ i.width.bits < s.latch.a.toNat % 2 ^ i.width.bits) ∧
        (t.ord = .lt ↔ s.latch.a.toNat % 2 ^ i.width.bits < s.latch.b.toNat % 2 ^ i.width.bits)) ∧
      (i.op ≠ .cmp → t.ord = .none)) ∧
    ∀ (s : State) (e : DecodeError), decode s.latch.cmd = .error e → ∃ t, perform s = .next t ∧ t.ord = s.ord

/-- R20: an illegal command sets `ERR`; no command clears it, only reset does; a legal command leaves it unchanged. -/
def Obligations.ErrFlagRule : Prop :=
  (∀ (s : State) (e : DecodeError), decode s.latch.cmd = .error e → ∃ t, perform s = .next t ∧ t.err = true) ∧
    (∀ (i : Instr) (s : State), ∃ t, exec i s = .next t ∧ t.err = s.err) ∧
    (∀ s t : State, s.resetSeen = true → s.err = true → step s = .next t → t.err = false →
      (portSample s).rst = true)

/-- The frame of every command at completion (R27): a legal one writes `Y`, `C`, `Z` and `ORD` alone, an illegal one
`ERR` alone; every other field of the state stays. -/
def Obligations.EveryCommandHasItsFrame : Prop :=
  (∀ (i : Instr) (s : State), ∃ t, exec i s = .next t ∧ OnlyResults s t) ∧
    (∀ (s : State) (i : Instr), decode s.latch.cmd = .ok i → ∃ t, perform s = .next t ∧ OnlyResults s t) ∧
    ∀ (s : State) (e : DecodeError), decode s.latch.cmd = .error e → perform s = .next { s with err := true }

/-- R36: for `W = 32` the bits `A[127:32]` and `B[127:32]` affect no result, flag or fault. -/
def Obligations.NarrowCommandsIgnoreUpperBits : Prop :=
  ∀ (i : Instr) (cmd : Byte) (a b a' b' : Word) (s : State), i.width = .w32 → decode cmd = .ok i →
    a.extractLsb' 0 32 = a'.extractLsb' 0 32 → b.extractLsb' 0 32 = b'.extractLsb' 0 32 →
    ∃ t t', perform (latchCommand cmd a b s) = .next t ∧ perform (latchCommand cmd a' b' s) = .next t' ∧
      visible t = visible t'

/-- R48: the unary commands use `a` only; `b` affects no result, flag or fault. -/
def Obligations.UnaryCommandsIgnoreB : Prop :=
  ∀ (i : Instr) (cmd : Byte) (a b b' : Word) (s : State), i.op.isUnary = true → decode cmd = .ok i →
    ∃ t t', perform (latchCommand cmd a b s) = .next t ∧ perform (latchCommand cmd a b' s) = .next t' ∧
      visible t = visible t'

/-! ### Reset, the handshake and time (70_reset_and_hazards.md) -/

/-- R26: the reset values that the spec gives. -/
def Obligations.ResetLeavesTheSpecsValues : Prop :=
  State.reset.y = 0 ∧ State.reset.c = false ∧ State.reset.z = true ∧ ordBits State.reset.ord = 0b11#2 ∧
    State.reset.err = false ∧ State.reset.busy = false

/-- R93: at every edge with `rst = 1` the state takes the reset values and no command is accepted, whatever `cmd_valid`
is; reset is the only way to clear `ERR`. From any state, the states before the first reset among them. -/
def Obligations.ResetEdgeTakesTheResetValues : Prop :=
  (∀ s : State, (portSample s).rst = true → (portSample s).secondAgent = false →
      ∃ t, step s = .next t ∧ t.y = 0 ∧ t.c = false ∧ t.z = true ∧ t.ord = .none ∧ t.err = false ∧
        t.busy = false) ∧
    ∀ s t : State, s.resetSeen = true → s.err = true → (portSample s).rst = false → step s = .next t →
      t.err = true

/-- R94: a reset while a command is in flight discards it, at its completion edge too: it never completes and leaves no
trace, however many edges the host then idles. -/
def Obligations.ResetDiscardsTheFlight : Prop :=
  ∀ (s : State) (e : EdgeInput) (k : Nat) (tail : List EdgeInput), s.busy = true → e.rst = true →
    e.secondAgent = false → s.inputs = e :: (List.replicate k idleInput ++ tail) →
    ∃ t, Host.Core.run Sys2Proof.core (k + 1) s = .next t ∧ visible t = visible State.reset ∧ t.busy = false

/-- R97: a command is accepted at an edge with `rst = 0`, `cmd_valid = 1` and `BUSY = 0`: the latch takes the ports,
and with `LATENCY >= 2` `BUSY` rises. At any other edge without reset the latch stays. -/
def Obligations.AcceptanceLatchesThePorts : Prop :=
  (∀ s : State, s.resetSeen = true → s.busy = false → Quiet (portSample s) → (portSample s).cmdValid = true →
      ∃ t, step s = .next t ∧
        t.latch = { cmd := (portSample s).cmd, a := (portSample s).a, b := (portSample s).b } ∧
        (2 ≤ s.latency → t.busy = true ∧ visible t = visible s)) ∧
    ∀ s : State, s.resetSeen = true → Quiet (portSample s) → s.busy = true ∨ (portSample s).cmdValid = false →
      ∃ t, step s = .next t ∧ t.latch = s.latch

/-- R103, R98: the ports are sampled only at the acceptance edge. With a command in flight nothing that the host offers
has an effect; with no valid offer, and at a reset edge, the values of `cmd`, `a` and `b` are ignored. -/
def Obligations.PortsAreIgnoredOutsideAcceptance : Prop :=
  (∀ (s : State) (e e' : EdgeInput) (tail : List EdgeInput), s.resetSeen = true → s.busy = true → Quiet e →
      Quiet e' → ∃ t, step { s with inputs := e :: tail } = .next t ∧ step { s with inputs := e' :: tail } = .next t) ∧
    (∀ (s : State) (e e' : EdgeInput) (tail : List EdgeInput), s.resetSeen = true → Quiet e → Quiet e' →
      e.cmdValid = false → e'.cmdValid = false →
      ∃ t, step { s with inputs := e :: tail } = .next t ∧ step { s with inputs := e' :: tail } = .next t) ∧
    ∀ (s : State) (e e' : EdgeInput) (tail : List EdgeInput), e.rst = true → e'.rst = true →
      e.secondAgent = false → e'.secondAgent = false →
      ∃ t, step { s with inputs := e :: tail } = .next t ∧ step { s with inputs := e' :: tail } = .next t

/-- R99, R100: a command accepted at edge `e_0` completes at edge `e_(LATENCY-1)`, whatever the host offers meanwhile.
There the unit applies `Perform` and `BUSY` is 0; after each edge before it `BUSY` is 1 and the outputs keep their
values. Legal and illegal commands alike, at every `LATENCY`. -/
def Obligations.CommandCompletesAfterLatency : Prop :=
  ∀ (s : State) (r : Request) (ps tail : List EdgeInput), s.resetSeen = true → s.busy = false →
    s.inputs = offerInput r.cmd r.a r.b :: (ps ++ tail) → ps.length = s.latencyMinusOne → (∀ p ∈ ps, Quiet p) →
    (∃ t u, performRequest r s = .next u ∧ Host.Core.run Sys2Proof.core s.latency s = .next t ∧
      visible t = visible u ∧ t.latch = { cmd := r.cmd, a := r.a, b := r.b } ∧ t.busy = false) ∧
    ∀ k, 1 ≤ k → k < s.latency →
      ∃ v, Host.Core.run Sys2Proof.core k s = .next v ∧ v.busy = true ∧ visible v = visible s

/-- R109, termination: an accepted command completes within `LATENCY` edges, with the results of `Perform` on the latched
command, so the unit cannot hang. `Inv` rules out flights longer than `LATENCY`; the count of edges to come is the model's own field (log entry 3). -/
def Obligations.BusyEndsWithinLatency : Prop :=
  ∀ s : State, Inv s → s.busy = true → (∀ p ∈ s.inputs.take s.remaining, Quiet p) →
    s.remaining < s.latency ∧
      ∃ t u, Host.Core.run Sys2Proof.core s.remaining s = .next t ∧ perform s = .next u ∧ visible t = visible u ∧
        t.busy = false

/-- R105: the cycle-level unit refines the command-level model. What the host observes after any number of edges is what
the command-level steps that those edges complete produce, in their order. -/
def Obligations.EdgesRefineTheCommandModel : Prop :=
  ∀ (k : Nat) (s t : State), s.resetSeen = true → Host.Core.run Sys2Proof.core k s = .next t →
    ∃ u, runCommands (completedSteps k s) s = .next u ∧ visible u = visible t

/-- The invariant holds after reset (R26, R28). Its clauses about the count of edges, 0 there, and about `resetSeen`, true
there, are the model's choice (log entries 3, 7) and no rule's. -/
def Obligations.ResetMeetsTheInvariant : Prop := Inv State.reset

/-- R28 (its clauses about one state) and R99: every step from a state that meets the invariant gives a state that meets
it. The count of edges in it is the model's own field (log entry 3). -/
def Obligations.EveryStepKeepsTheInvariant : Prop :=
  ∀ s t : State, Inv s → step s = .next t → Inv t

/-- R96: one reset edge is all the initialisation the unit needs; the reset values are R93's. It gives the invariant from
any state whatever, the draws before the first reset among them. The invariant's clauses about the count of edges and
about `resetSeen`, and the draws, are the model's choice (log entries 3, 7) and no rule's. -/
def Obligations.OneResetEdgeIsEnough : Prop :=
  ∀ s : State, (portSample s).rst = true → (portSample s).secondAgent = false →
    ∃ t, step s = .next t ∧ Inv t ∧ visible t = visible State.reset ∧ t.busy = false

/-- R28: what holds in every state after a reset, at command level and after every rising edge; the last legal command is
that of the command-level steps that the edges have completed. -/
def Obligations.RunsKeepTheSummary : Prop :=
  (∀ (cs : List CommandStep) (s₀ : State), ∃ t, runCommands cs (resetUnit s₀) = .next t ∧
      SummaryHolds (lastLegal cs none) t) ∧
    ∀ (k : Nat) (s₀ t : State), Host.Core.run Sys2Proof.core k (resetUnit s₀) = .next t →
      SummaryHolds (lastLegal (completedSteps k (resetUnit s₀)) none) t

/-- R29, from any state after the first reset: the state after a sequence of commands is the state after its legal
commands alone, with `ERR = 1` if any command was illegal. -/
def Obligations.IllegalCommandsLeaveOnlyErr : Prop :=
  ∀ (rs : List Request) (s : State), s.resetSeen = true → ∃ t u,
    runCommands (rs.map .command) s = .next t ∧ runCommands ((rs.filter isLegal).map .command) s = .next u ∧
    t.y = u.y ∧ t.c = u.c ∧ t.z = u.z ∧ t.ord = u.ord ∧ u.err = s.err ∧
    t.err = (s.err || rs.any fun r => !isLegal r)

/-- R109, launch and fault: a run of commands from the reset state, with no reset step in it, is fault-free exactly when
each of its command words is legal. -/
def Obligations.FaultFreeRunsHaveLegalWords : Prop :=
  ∀ rs : List Request, faultFree (rs.map .command) State.reset = true ↔ ∀ r ∈ rs, ∃ i, decode r.cmd = .ok i

/-- A step runs the decoded instruction (R54, R97, R99): at the completion edge of a command in flight, and at the
acceptance edge when `LATENCY = 1`. Around `exec` the edge consumes its sample of the ports, latches the command when it
accepts one, and clears `BUSY` and the count (the sample list and the count are the model's own: log entries 3, 4). That
`BUSY = 1` with a count of 0, which no run reaches, completes too is the model's choice (log entry 12), and no rule's. -/
def Obligations.StepRunsTheDecodedCommand : Prop :=
  (∀ (s : State) (i : Instr), s.resetSeen = true → Quiet (portSample s) → s.busy = true → s.remaining ≤ 1 →
      decode s.latch.cmd = .ok i →
      step s = exec i { s with inputs := s.inputs.tail, busy := false, remaining := 0 }) ∧
    ∀ (s : State) (i : Instr), s.resetSeen = true → Quiet (portSample s) → s.busy = false →
      (portSample s).cmdValid = true → s.latency = 1 → decode (portSample s).cmd = .ok i →
      step s = exec i
        { s with
          inputs := s.inputs.tail, busy := false, remaining := 0,
          latch := { cmd := (portSample s).cmd, a := (portSample s).a, b := (portSample s).b } }

/-- A command word put where the next step takes its command is what that step runs, on the values that stand on the
operand ports (log entry 5 says what the placing sets). -/
def Obligations.PlacedWordIsWhatRuns : Prop :=
  ∀ (s : State) (nbits w : Nat) (i : Instr), decodeTableWord nbits w = some i →
    step (s.withFetchWord nbits w) = exec i
      { s with
        latch := { cmd := BitVec.ofNat 8 (w % 2 ^ nbits), a := (portSample s).a, b := (portSample s).b }
        inputs := s.inputs.tail, busy := false, remaining := 0, latencyMinusOne := 0, resetSeen := true }

/-- R92: a second agent on the ports is refused, by name, and nothing else is. That it is refused at an edge with
`rst = 1` too, where R85 and R93 let reset win, is the model's choice (log entry 6). -/
def Obligations.OnlyASecondAgentIsRefused : Prop :=
  (∀ s : State, (portSample s).secondAgent = true → step s = .refused .secondAgent) ∧
    ∀ s : State, (portSample s).secondAgent = false → ∃ t, step s = .next t

/-- R97, R100: with nothing in flight, edges without a valid offer and without reset change nothing, however many of them
there are. Where the list of samples has ended the host idles (log entry 4). -/
def Obligations.IdleEdgesChangeNothing : Prop :=
  ∀ (k : Nat) (s : State), s.resetSeen = true → s.busy = false →
    (∀ p ∈ s.inputs.take k, Quiet p ∧ p.cmdValid = false) →
    Host.Core.run Sys2Proof.core k s = .next { s with inputs := s.inputs.drop k }

/-- R9, R99: `LATENCY` is a parameter of the machine, at least 1, the same for every command: no step changes it. -/
def Obligations.LatencyIsFixed : Prop :=
  ∀ s t : State, step s = .next t → t.latency = s.latency ∧ 1 ≤ t.latency

/-- R21: `cmd_ready` is the inverse of `BUSY`, and with `LATENCY = 1` `BUSY` is never observed as 1. -/
def Obligations.NeverBusyAtLatencyOne : Prop :=
  (∀ s : State, (outputs s).cmdReady = !(outputs s).busy) ∧
    ∀ (k : Nat) (s t : State), Inv s → s.latency = 1 → Host.Core.run Sys2Proof.core k s = .next t →
      (outputs t).busy = false ∧ (outputs t).cmdReady = true

/-! ### The byte view (20_memory.md) and the assembler (30_encoding.md) -/

/-- R33: the value of a buffer is the big-endian sum; byte `i` of a 16-byte buffer is `v[127-8i : 120-8i]`, byte `i` of
a 4-byte buffer is `v[31-8i : 24-8i]`. That a 4-byte buffer's port carries 0 above bit 31 is the model's choice
(log entry 14), and no rule's. -/
def Obligations.ByteViewIsBigEndian : Prop :=
  (∀ buf : List Byte, beValue buf = ∑ i : Fin buf.length, (buf.get i).toNat * 2 ^ (8 * (buf.length - 1 - i))) ∧
    (∀ (v : Word) (i : Nat), i < 16 → (beBytes 16 v.toNat)[i]? = some (v.extractLsb' (120 - 8 * i) 8)) ∧
    (∀ (v : BitVec 32) (i : Nat), i < 4 → (beBytes 4 v.toNat)[i]? = some (v.extractLsb' (24 - 8 * i) 8)) ∧
    ∀ buf : List Byte, buf.length = 4 → (portOfBytes buf).extractLsb' 32 96 = 0

/-- R34: the byte conversions round-trip, in both directions. -/
def Obligations.ByteViewRoundTrips : Prop :=
  (∀ buf : List Byte, beBytes buf.length (beValue buf) = buf) ∧
    ∀ n v : Nat, v < 2 ^ (8 * n) → (beBytes n v).length = n ∧ beValue (beBytes n v) = v

/-- R35: the high half holds bytes 0 to 7 and the low half bytes 8 to 15 of a 16-byte buffer; a 4-byte buffer's value
stands in port bits `[31:0]`. -/
def Obligations.HalvesHoldTheirBytes : Prop :=
  (∀ buf : List Byte, buf.length = 16 →
      (hi (portOfBytes buf)).toNat = beValue (buf.take 8) ∧ (lo (portOfBytes buf)).toNat = beValue (buf.drop 8)) ∧
    ∀ buf : List Byte, buf.length = 4 →
      ((portOfBytes buf).extractLsb' 0 32).toNat = beValue buf

/-- R57: the expansion and the effect of every pseudo-instruction. -/
def Obligations.PseudoInstructionsHaveTheirEffect : Prop :=
  ∀ (w : Width) (x : Nat) (s : State), s.resetSeen = true → x < 2 ^ w.bits →
    (expandPseudo (.mov w (.value x)) = [lineOf .or w (.value x) (.value 0)] ∧
      ∃ t, runLines (expandPseudo (.mov w (.value x))) s = .next t ∧ t.y.toNat = x) ∧
    (expandPseudo (.clr w) = [lineOf .and w (.value 0) (.value 0)] ∧
      ∃ t, runLines (expandPseudo (.clr w)) s = .next t ∧ t.y = 0 ∧ t.z = true) ∧
    (expandPseudo (.inc w (.value x)) = [lineOf .add w (.value x) (.value 1)] ∧
      ∃ t, runLines (expandPseudo (.inc w (.value x))) s = .next t ∧ t.y.toNat = (x + 1) % 2 ^ w.bits ∧
        (t.c = true ↔ x + 1 = 2 ^ w.bits)) ∧
    (expandPseudo (.dec w (.value x)) = [lineOf .sub w (.value x) (.value 1)] ∧
      ∃ t, runLines (expandPseudo (.dec w (.value x))) s = .next t ∧
        t.y.toNat = (x + 2 ^ w.bits - 1) % 2 ^ w.bits ∧ (t.c = true ↔ x = 0)) ∧
    (expandPseudo (.neg w (.value x)) = [lineOf .sub w (.value 0) (.value x)] ∧
      ∃ t, runLines (expandPseudo (.neg w (.value x))) s = .next t ∧
        t.y.toNat = (2 ^ w.bits - x) % 2 ^ w.bits) ∧
    (expandPseudo (.tst w (.value x)) = [lineOf .cmp w (.value x) (.value 0)] ∧
      ∃ t, runLines (expandPseudo (.tst w (.value x))) s = .next t ∧
        ordBits t.ord = if x = 0 then 0b00#2 else 0b01#2) ∧
    (expandPseudo (.pow2 w (.value x)) = [lineOf .shl w (.value 1) (.value x)] ∧
      ∃ t, runLines (expandPseudo (.pow2 w (.value x))) s = .next t ∧
        t.y.toNat = if x < w.bits then 2 ^ x else 0) ∧
    (expandPseudo (.bitlen w (.value x)) =
        [lineOf .clz w (.value x) (.value 0), lineOf .sub w (.value w.bits) .resultY] ∧
      ∃ t, runLines (expandPseudo (.bitlen w (.value x))) s = .next t ∧
        t.y.toNat = if x = 0 then 0 else Nat.log2 x + 1) ∧
    (∀ p ≤ w.bits,
      expandPseudo (.mask w p) =
          [lineOf .shl w (.value 1) (.value (w.bits - p)), lineOf .sub w .resultY (.value 1),
            lineOf .not w .resultY (.value 0)] ∧
        ∃ t, runLines (expandPseudo (.mask w p)) s = .next t ∧ t.y.toNat = 2 ^ w.bits - 2 ^ (w.bits - p))

/-- R55, R56: what the assembler accepts and what it refuses. A line reads as it is written, and one of its values of
`2^W` or more refuses the whole line; an accepted line has every value below `2^W`, and a unary command's `b` is `0`.
No rule's, but the model's choice: that a `MASK` length above `W` is refused (the last clause; log entry 13), and where
the text has blanks, which case its digits have and where `Y` may stand (log entry 9). -/
def Obligations.AssembledTextIsWellFormed : Prop :=
  (∀ (cs : List Char) (l : AsmLine), parseLine cs = some (.command l) →
      parseText cs = some (.command l) ∧ (∀ n, l.a = .value n → n < 2 ^ l.instr.width.bits) ∧
        (∀ n, l.b = .value n → n < 2 ^ l.instr.width.bits) ∧ (l.instr.op.isUnary = true → l.b = .value 0)) ∧
    (∀ (cs : List Char) (l : AsmLine), parseText cs = some (.command l) →
      (∀ n, l.a = .value n → n < 2 ^ l.instr.width.bits) → (∀ n, l.b = .value n → n < 2 ^ l.instr.width.bits) →
      parseLine cs = some (.command l)) ∧
    (∀ (hex : Bool) (i : Instr) (n : Nat) (x : AsmOperand), 2 ^ i.width.bits ≤ n →
      parseLine (printText hex (.command { instr := i, a := .value n, b := x })) = none ∧
        (i.op.isUnary = false → parseLine (printText hex (.command { instr := i, a := x, b := .value n })) = none)) ∧
    (∀ (hex : Bool) (w : Width) (n : Nat), 2 ^ w.bits ≤ n →
      parseLine (printText hex (.pseudo (.mov w (.value n)))) = none ∧
        parseLine (printText hex (.pseudo (.inc w (.value n)))) = none ∧
        parseLine (printText hex (.pseudo (.dec w (.value n)))) = none ∧
        parseLine (printText hex (.pseudo (.neg w (.value n)))) = none ∧
        parseLine (printText hex (.pseudo (.tst w (.value n)))) = none ∧
        parseLine (printText hex (.pseudo (.pow2 w (.value n)))) = none ∧
        parseLine (printText hex (.pseudo (.bitlen w (.value n)))) = none) ∧
    ∀ (hex : Bool) (w : Width) (p : Nat), w.bits < p → parseLine (printText hex (.pseudo (.mask w p))) = none

/-- R55, R56, R57: the written form of every command line and pseudo-instruction whose values fit, with decimal or with
hexadecimal numerals, is read as that very line. Fitting is spelled out: below `2^W`, `MASK`'s length at most `W`, and a
unary command's `b`, which is not written, `0`. That hexadecimal digits in small letters, the blanks as written and `Y`
as an operand of any line are accepted is the model's choice (log entry 9), and no rule's. -/
def Obligations.PrintedTextParsesBack : Prop :=
  (∀ (hex : Bool) (l : AsmLine), (∀ n, l.a = .value n → n < 2 ^ l.instr.width.bits) →
      (∀ n, l.b = .value n → n < 2 ^ l.instr.width.bits) → (l.instr.op.isUnary = true → l.b = .value 0) →
      parseLine (printText hex (.command l)) = some (.command l)) ∧
    (∀ (hex : Bool) (w : Width) (x : AsmOperand), (∀ n, x = .value n → n < 2 ^ w.bits) →
      parseLine (printText hex (.pseudo (.mov w x))) = some (.pseudo (.mov w x)) ∧
        parseLine (printText hex (.pseudo (.inc w x))) = some (.pseudo (.inc w x)) ∧
        parseLine (printText hex (.pseudo (.dec w x))) = some (.pseudo (.dec w x)) ∧
        parseLine (printText hex (.pseudo (.neg w x))) = some (.pseudo (.neg w x)) ∧
        parseLine (printText hex (.pseudo (.tst w x))) = some (.pseudo (.tst w x)) ∧
        parseLine (printText hex (.pseudo (.pow2 w x))) = some (.pseudo (.pow2 w x)) ∧
        parseLine (printText hex (.pseudo (.bitlen w x))) = some (.pseudo (.bitlen w x))) ∧
    (∀ (hex : Bool) (w : Width), parseLine (printText hex (.pseudo (.clr w))) = some (.pseudo (.clr w))) ∧
    ∀ (hex : Bool) (w : Width), ∀ p ≤ w.bits,
      parseLine (printText hex (.pseudo (.mask w p))) = some (.pseudo (.mask w p))

/-! ### The unit before its first reset (70_reset_and_hazards.md R95) -/

/-- R95: before the first reset an edge without reset, and a command of the command-level model, leave every bit of the
unit any value: the free values of the next draw, whatever the ports, the command and the state before. The counter of
the draws and `resetSeen` are the model's own (log entries 7, 15); nothing is said of what a draw gives. -/
def Obligations.BeforeTheFirstResetEveryBitIsDrawn : Prop :=
  (∀ s : State, s.resetSeen = false → Quiet (portSample s) →
      ∃ t, step s = .next t ∧ DrawnAt s.draws t ∧ t.draws = s.draws + 1 ∧ t.resetSeen = false ∧
        t.latency = s.latency) ∧
    ∀ (r : Request) (s : State), s.resetSeen = false →
      ∃ t, performRequest r s = .next t ∧ DrawnAt s.draws t ∧ t.draws = s.draws + 1 ∧ t.resetSeen = false ∧
        t.latency = s.latency
end

