-- ==== Sys2Proof/Laws/State.lean ====
section
/-! SUPPORT. One lemma per field per update of the state: what the update leaves there. -/

namespace Sys2Proof.Machine

/-! What a legal command writes at completion (30_encoding.md R54). -/

@[simp] theorem writeResult_y (r : Result) (s : State) : (writeResult r s).y = BitVec.ofNat 128 r.res := rfl
@[simp] theorem writeResult_c (r : Result) (s : State) : (writeResult r s).c = r.c := rfl
@[simp] theorem writeResult_z (r : Result) (s : State) : (writeResult r s).z = zeroFlag (BitVec.ofNat 128 r.res) := rfl
@[simp] theorem writeResult_ord (r : Result) (s : State) : (writeResult r s).ord = r.ord := rfl
@[simp] theorem writeResult_err (r : Result) (s : State) : (writeResult r s).err = s.err := rfl
@[simp] theorem writeResult_busy (r : Result) (s : State) : (writeResult r s).busy = s.busy := rfl
@[simp] theorem writeResult_latch (r : Result) (s : State) : (writeResult r s).latch = s.latch := rfl
@[simp] theorem writeResult_remaining (r : Result) (s : State) : (writeResult r s).remaining = s.remaining := rfl
@[simp] theorem writeResult_latencyMinusOne (r : Result) (s : State) : (writeResult r s).latencyMinusOne = s.latencyMinusOne := rfl
@[simp] theorem writeResult_inputs (r : Result) (s : State) : (writeResult r s).inputs = s.inputs := rfl
@[simp] theorem writeResult_resetSeen (r : Result) (s : State) : (writeResult r s).resetSeen = s.resetSeen := rfl
@[simp] theorem writeResult_draws (r : Result) (s : State) : (writeResult r s).draws = s.draws := rfl

/-! The exception writes `ERR` alone (60_exceptions.md R83). -/

@[simp] theorem raiseIllegalCommand_y (s : State) : (raiseIllegalCommand s).y = s.y := rfl
@[simp] theorem raiseIllegalCommand_c (s : State) : (raiseIllegalCommand s).c = s.c := rfl
@[simp] theorem raiseIllegalCommand_z (s : State) : (raiseIllegalCommand s).z = s.z := rfl
@[simp] theorem raiseIllegalCommand_ord (s : State) : (raiseIllegalCommand s).ord = s.ord := rfl
@[simp] theorem raiseIllegalCommand_err (s : State) : (raiseIllegalCommand s).err = true := rfl
@[simp] theorem raiseIllegalCommand_busy (s : State) : (raiseIllegalCommand s).busy = s.busy := rfl
@[simp] theorem raiseIllegalCommand_latch (s : State) : (raiseIllegalCommand s).latch = s.latch := rfl
@[simp] theorem raiseIllegalCommand_remaining (s : State) : (raiseIllegalCommand s).remaining = s.remaining := rfl
@[simp] theorem raiseIllegalCommand_latencyMinusOne (s : State) : (raiseIllegalCommand s).latencyMinusOne = s.latencyMinusOne := rfl
@[simp] theorem raiseIllegalCommand_inputs (s : State) : (raiseIllegalCommand s).inputs = s.inputs := rfl
@[simp] theorem raiseIllegalCommand_resetSeen (s : State) : (raiseIllegalCommand s).resetSeen = s.resetSeen := rfl
@[simp] theorem raiseIllegalCommand_draws (s : State) : (raiseIllegalCommand s).draws = s.draws := rfl

/-! The acceptance edge writes the latch alone (70_reset_and_hazards.md R97). -/

@[simp] theorem latchCommand_y (cmd : Byte) (a b : Word) (s : State) : (latchCommand cmd a b s).y = s.y := rfl
@[simp] theorem latchCommand_c (cmd : Byte) (a b : Word) (s : State) : (latchCommand cmd a b s).c = s.c := rfl
@[simp] theorem latchCommand_z (cmd : Byte) (a b : Word) (s : State) : (latchCommand cmd a b s).z = s.z := rfl
@[simp] theorem latchCommand_ord (cmd : Byte) (a b : Word) (s : State) : (latchCommand cmd a b s).ord = s.ord := rfl
@[simp] theorem latchCommand_err (cmd : Byte) (a b : Word) (s : State) : (latchCommand cmd a b s).err = s.err := rfl
@[simp] theorem latchCommand_busy (cmd : Byte) (a b : Word) (s : State) : (latchCommand cmd a b s).busy = s.busy := rfl
@[simp] theorem latchCommand_latch (cmd : Byte) (a b : Word) (s : State) : (latchCommand cmd a b s).latch = { cmd := cmd, a := a, b := b } := rfl
@[simp] theorem latchCommand_remaining (cmd : Byte) (a b : Word) (s : State) : (latchCommand cmd a b s).remaining = s.remaining := rfl
@[simp] theorem latchCommand_latencyMinusOne (cmd : Byte) (a b : Word) (s : State) : (latchCommand cmd a b s).latencyMinusOne = s.latencyMinusOne := rfl
@[simp] theorem latchCommand_inputs (cmd : Byte) (a b : Word) (s : State) : (latchCommand cmd a b s).inputs = s.inputs := rfl
@[simp] theorem latchCommand_resetSeen (cmd : Byte) (a b : Word) (s : State) : (latchCommand cmd a b s).resetSeen = s.resetSeen := rfl
@[simp] theorem latchCommand_draws (cmd : Byte) (a b : Word) (s : State) : (latchCommand cmd a b s).draws = s.draws := rfl

/-! A command enters its flight (R97, R99). -/

@[simp] theorem startFlight_y (s : State) : (startFlight s).y = s.y := rfl
@[simp] theorem startFlight_c (s : State) : (startFlight s).c = s.c := rfl
@[simp] theorem startFlight_z (s : State) : (startFlight s).z = s.z := rfl
@[simp] theorem startFlight_ord (s : State) : (startFlight s).ord = s.ord := rfl
@[simp] theorem startFlight_err (s : State) : (startFlight s).err = s.err := rfl
@[simp] theorem startFlight_busy (s : State) : (startFlight s).busy = true := rfl
@[simp] theorem startFlight_latch (s : State) : (startFlight s).latch = s.latch := rfl
@[simp] theorem startFlight_remaining (s : State) : (startFlight s).remaining = s.latencyMinusOne := rfl
@[simp] theorem startFlight_latencyMinusOne (s : State) : (startFlight s).latencyMinusOne = s.latencyMinusOne := rfl
@[simp] theorem startFlight_inputs (s : State) : (startFlight s).inputs = s.inputs := rfl
@[simp] theorem startFlight_resetSeen (s : State) : (startFlight s).resetSeen = s.resetSeen := rfl
@[simp] theorem startFlight_draws (s : State) : (startFlight s).draws = s.draws := rfl

/-! An edge of the flight (R100). -/

@[simp] theorem waitEdge_y (s : State) : (waitEdge s).y = s.y := rfl
@[simp] theorem waitEdge_c (s : State) : (waitEdge s).c = s.c := rfl
@[simp] theorem waitEdge_z (s : State) : (waitEdge s).z = s.z := rfl
@[simp] theorem waitEdge_ord (s : State) : (waitEdge s).ord = s.ord := rfl
@[simp] theorem waitEdge_err (s : State) : (waitEdge s).err = s.err := rfl
@[simp] theorem waitEdge_busy (s : State) : (waitEdge s).busy = s.busy := rfl
@[simp] theorem waitEdge_latch (s : State) : (waitEdge s).latch = s.latch := rfl
@[simp] theorem waitEdge_remaining (s : State) : (waitEdge s).remaining = s.remaining - 1 := rfl
@[simp] theorem waitEdge_latencyMinusOne (s : State) : (waitEdge s).latencyMinusOne = s.latencyMinusOne := rfl
@[simp] theorem waitEdge_inputs (s : State) : (waitEdge s).inputs = s.inputs := rfl
@[simp] theorem waitEdge_resetSeen (s : State) : (waitEdge s).resetSeen = s.resetSeen := rfl
@[simp] theorem waitEdge_draws (s : State) : (waitEdge s).draws = s.draws := rfl

/-! The flight ends (R99). -/

@[simp] theorem endFlight_y (s : State) : (endFlight s).y = s.y := rfl
@[simp] theorem endFlight_c (s : State) : (endFlight s).c = s.c := rfl
@[simp] theorem endFlight_z (s : State) : (endFlight s).z = s.z := rfl
@[simp] theorem endFlight_ord (s : State) : (endFlight s).ord = s.ord := rfl
@[simp] theorem endFlight_err (s : State) : (endFlight s).err = s.err := rfl
@[simp] theorem endFlight_busy (s : State) : (endFlight s).busy = false := rfl
@[simp] theorem endFlight_latch (s : State) : (endFlight s).latch = s.latch := rfl
@[simp] theorem endFlight_remaining (s : State) : (endFlight s).remaining = 0 := rfl
@[simp] theorem endFlight_latencyMinusOne (s : State) : (endFlight s).latencyMinusOne = s.latencyMinusOne := rfl
@[simp] theorem endFlight_inputs (s : State) : (endFlight s).inputs = s.inputs := rfl
@[simp] theorem endFlight_resetSeen (s : State) : (endFlight s).resetSeen = s.resetSeen := rfl
@[simp] theorem endFlight_draws (s : State) : (endFlight s).draws = s.draws := rfl

/-! The edge consumes its sample. -/

@[simp] theorem dropSample_y (s : State) : (dropSample s).y = s.y := rfl
@[simp] theorem dropSample_c (s : State) : (dropSample s).c = s.c := rfl
@[simp] theorem dropSample_z (s : State) : (dropSample s).z = s.z := rfl
@[simp] theorem dropSample_ord (s : State) : (dropSample s).ord = s.ord := rfl
@[simp] theorem dropSample_err (s : State) : (dropSample s).err = s.err := rfl
@[simp] theorem dropSample_busy (s : State) : (dropSample s).busy = s.busy := rfl
@[simp] theorem dropSample_latch (s : State) : (dropSample s).latch = s.latch := rfl
@[simp] theorem dropSample_remaining (s : State) : (dropSample s).remaining = s.remaining := rfl
@[simp] theorem dropSample_latencyMinusOne (s : State) : (dropSample s).latencyMinusOne = s.latencyMinusOne := rfl
@[simp] theorem dropSample_inputs (s : State) : (dropSample s).inputs = s.inputs.tail := rfl
@[simp] theorem dropSample_resetSeen (s : State) : (dropSample s).resetSeen = s.resetSeen := rfl
@[simp] theorem dropSample_draws (s : State) : (dropSample s).draws = s.draws := rfl

/-! A reset edge (R93; 10_state.md R26). -/

@[simp] theorem resetUnit_y (s : State) : (resetUnit s).y = 0 := rfl
@[simp] theorem resetUnit_c (s : State) : (resetUnit s).c = false := rfl
@[simp] theorem resetUnit_z (s : State) : (resetUnit s).z = true := rfl
@[simp] theorem resetUnit_ord (s : State) : (resetUnit s).ord = .none := rfl
@[simp] theorem resetUnit_err (s : State) : (resetUnit s).err = false := rfl
@[simp] theorem resetUnit_busy (s : State) : (resetUnit s).busy = false := rfl
@[simp] theorem resetUnit_latch (s : State) : (resetUnit s).latch = { cmd := 0, a := 0, b := 0 } := rfl
@[simp] theorem resetUnit_remaining (s : State) : (resetUnit s).remaining = 0 := rfl
@[simp] theorem resetUnit_latencyMinusOne (s : State) : (resetUnit s).latencyMinusOne = s.latencyMinusOne := rfl
@[simp] theorem resetUnit_inputs (s : State) : (resetUnit s).inputs = s.inputs := rfl
@[simp] theorem resetUnit_resetSeen (s : State) : (resetUnit s).resetSeen = true := rfl
@[simp] theorem resetUnit_draws (s : State) : (resetUnit s).draws = s.draws := rfl

/-! Before the first reset only the parameter, the inputs and the flag of the reset are known (R95). -/

@[simp] theorem drawPowerUp_latencyMinusOne (s : State) : (drawPowerUp s).latencyMinusOne = s.latencyMinusOne := rfl
@[simp] theorem drawPowerUp_inputs (s : State) : (drawPowerUp s).inputs = s.inputs := rfl
@[simp] theorem drawPowerUp_resetSeen (s : State) : (drawPowerUp s).resetSeen = false := rfl
@[simp] theorem drawPowerUp_draws (s : State) : (drawPowerUp s).draws = s.draws + 1 := rfl

/-! A command placed for the very next edge. -/

@[simp] theorem offerNext_y (cmd : Byte) (s : State) : (offerNext cmd s).y = s.y := rfl
@[simp] theorem offerNext_c (cmd : Byte) (s : State) : (offerNext cmd s).c = s.c := rfl
@[simp] theorem offerNext_z (cmd : Byte) (s : State) : (offerNext cmd s).z = s.z := rfl
@[simp] theorem offerNext_ord (cmd : Byte) (s : State) : (offerNext cmd s).ord = s.ord := rfl
@[simp] theorem offerNext_err (cmd : Byte) (s : State) : (offerNext cmd s).err = s.err := rfl
@[simp] theorem offerNext_busy (cmd : Byte) (s : State) : (offerNext cmd s).busy = false := rfl
@[simp] theorem offerNext_latch (cmd : Byte) (s : State) : (offerNext cmd s).latch = s.latch := rfl
@[simp] theorem offerNext_remaining (cmd : Byte) (s : State) : (offerNext cmd s).remaining = 0 := rfl
@[simp] theorem offerNext_latencyMinusOne (cmd : Byte) (s : State) : (offerNext cmd s).latencyMinusOne = 0 := rfl
@[simp] theorem offerNext_inputs (cmd : Byte) (s : State) : (offerNext cmd s).inputs = offerInput cmd (portSample s).a (portSample s).b :: s.inputs.tail := rfl
@[simp] theorem offerNext_resetSeen (cmd : Byte) (s : State) : (offerNext cmd s).resetSeen = true := rfl
@[simp] theorem offerNext_draws (cmd : Byte) (s : State) : (offerNext cmd s).draws = s.draws := rfl

end Sys2Proof.Machine
end

