-- ==== Sys2Proof/Laws/Command.lean ====
section
/-! SUPPORT. What the shared operations can do, said once: `exec` and `perform` always answer a next state, written by
`writeResult` or by the exception. -/

namespace Sys2Proof.Machine

/-- The result of an operation at a width, on operands of that width; `exec_eq` says that it is what the meaning
writes. -/
def opResult : Op → Width → Nat → Nat → Result
  | .add, w, a, b => addResult w a b
  | .sub, w, a, b => subResult w a b
  | .shl, w, a, b => shlResult w a b
  | .shr, w, a, b => shrResult w a b
  | .cmp, _, a, b => cmpResult a b
  | .and, _, a, b => andResult a b
  | .or, _, a, b => orResult a b
  | .not, w, a, _ => notResult w a
  | .ctz, w, a, _ => ctzResult w a
  | .clz, w, a, _ => clzResult w a

/-- The result of a command on a latch. -/
def commandResult (i : Instr) (l : Latch) : Result :=
  opResult i.op i.width (atWidth i.width l.a) (atWidth i.width l.b)

/-- Every meaning answers the next state that `writeResult` makes of the command's result. -/
theorem exec_eq (i : Instr) (s : State) : exec i s = .next (writeResult (commandResult i s.latch) s) := by
  cases i <;> rfl

/-- The state that `Perform` leaves (30_encoding.md R54). -/
def performed (s : State) : State :=
  match decode s.latch.cmd with
  | .ok i => writeResult (commandResult i s.latch) s
  | .error _ => raiseIllegalCommand s

theorem perform_eq (s : State) : perform s = .next (performed s) := by
  unfold perform performed
  cases decode s.latch.cmd with
  | ok i => exact exec_eq i s
  | error e => rfl

theorem performed_of_ok {s : State} {i : Instr} (h : decode s.latch.cmd = .ok i) :
    performed s = writeResult (commandResult i s.latch) s := by
  simp only [performed, h]

theorem performed_of_error {s : State} {e : DecodeError} (h : decode s.latch.cmd = .error e) :
    performed s = raiseIllegalCommand s := by
  simp only [performed, h]

theorem performed_latchCommand_of_ok {cmd : Byte} {i : Instr} (h : decode cmd = .ok i) (a b : Word) (s : State) :
    performed (latchCommand cmd a b s) =
      writeResult (commandResult i { cmd := cmd, a := a, b := b }) (latchCommand cmd a b s) := by
  rw [performed_of_ok (s := latchCommand cmd a b s) h, latchCommand_latch]

theorem performed_latchCommand_of_error {cmd : Byte} {e : DecodeError} (h : decode cmd = .error e) (a b : Word)
    (s : State) : performed (latchCommand cmd a b s) = raiseIllegalCommand (latchCommand cmd a b s) :=
  performed_of_error (s := latchCommand cmd a b s) h

/-- What `Perform` leaves unchanged, whatever the word. -/
theorem performed_frame (s : State) :
    (performed s).busy = s.busy ∧ (performed s).latch = s.latch ∧ (performed s).remaining = s.remaining ∧
      (performed s).latencyMinusOne = s.latencyMinusOne ∧ (performed s).inputs = s.inputs ∧
      (performed s).resetSeen = s.resetSeen ∧ (performed s).draws = s.draws := by
  unfold performed
  cases decode s.latch.cmd <;> simp

@[simp] theorem performed_busy (s : State) : (performed s).busy = s.busy := (performed_frame s).1
@[simp] theorem performed_latch (s : State) : (performed s).latch = s.latch := (performed_frame s).2.1
@[simp] theorem performed_remaining (s : State) : (performed s).remaining = s.remaining := (performed_frame s).2.2.1
@[simp] theorem performed_latencyMinusOne (s : State) : (performed s).latencyMinusOne = s.latencyMinusOne :=
  (performed_frame s).2.2.2.1
@[simp] theorem performed_inputs (s : State) : (performed s).inputs = s.inputs := (performed_frame s).2.2.2.2.1
@[simp] theorem performed_resetSeen (s : State) : (performed s).resetSeen = s.resetSeen :=
  (performed_frame s).2.2.2.2.2.1
@[simp] theorem performed_draws (s : State) : (performed s).draws = s.draws := (performed_frame s).2.2.2.2.2.2

/-- The visible part after `Perform` is a function of the latch and of the visible part before. -/
theorem visible_performed_congr {s t : State} (hl : s.latch = t.latch) (hv : visible s = visible t) :
    visible (performed s) = visible (performed t) := by
  unfold performed
  rw [hl]
  simp only [visible, Visible.mk.injEq] at hv
  cases decode t.latch.cmd <;> simp [visible, hv]

/-- `Perform` neither reads nor writes what the handshake keeps. -/
theorem performed_handshake (s : State) (b : Bool) (r : Nat) (es : List EdgeInput) :
    performed { s with busy := b, remaining := r, inputs := es } =
      { performed s with busy := b, remaining := r, inputs := es } := by
  unfold performed
  cases decode s.latch.cmd <;> rfl

/-- Equal results and equal `ERR` make equal visible parts. -/
theorem visible_writeResult_congr {r r' : Result} {s t : State} (hr : r = r') (he : s.err = t.err) :
    visible (writeResult r s) = visible (writeResult r' t) := by
  subst hr
  simp [visible, he]

@[simp] theorem complete_eq (s : State) : complete s = .next (performed (endFlight s)) := perform_eq _

/-- The state that a command of the command-level model leaves. -/
def afterRequest (r : Request) (s : State) : State :=
  if s.resetSeen then performed (latchCommand r.cmd r.a r.b s) else drawPowerUp s

@[simp] theorem performRequest_eq (r : Request) (s : State) : performRequest r s = .next (afterRequest r s) := by
  unfold performRequest afterRequest
  split
  · exact perform_eq _
  · rfl

/-- After the first reset a command leaves what `Perform` gives (R105). -/
theorem afterRequest_of_resetSeen {s : State} (h : s.resetSeen = true) (r : Request) :
    afterRequest r s = performed (latchCommand r.cmd r.a r.b s) := if_pos h

/-- Before it, free values (R95). -/
theorem afterRequest_beforeReset {s : State} (h : s.resetSeen = false) (r : Request) :
    afterRequest r s = drawPowerUp s := by
  simp [afterRequest, h]

@[simp] theorem afterRequest_resetSeen (r : Request) (s : State) : (afterRequest r s).resetSeen = s.resetSeen := by
  cases h : s.resetSeen with
  | true => rw [afterRequest_of_resetSeen h, performed_resetSeen, latchCommand_resetSeen, h]
  | false => rw [afterRequest_beforeReset h, drawPowerUp_resetSeen]

/-- A command-level step never stops. -/
def afterCommandStep : CommandStep → State → State
  | .command r, s => afterRequest r s
  | .reset, s => resetUnit s

@[simp] theorem commandStep_eq (c : CommandStep) (s : State) : commandStep c s = .next (afterCommandStep c s) := by
  cases c with
  | command r => exact performRequest_eq r s
  | reset => rfl

@[simp] theorem runCommands_nil (s : State) : runCommands [] s = .next s := rfl

@[simp] theorem runCommands_cons (c : CommandStep) (cs : List CommandStep) (s : State) :
    runCommands (c :: cs) s = runCommands cs (afterCommandStep c s) := by
  simp only [runCommands, commandStep_eq]

/-- A step of the command-level model is a step of a unit after its first reset, if it starts from one. -/
theorem afterCommandStep_resetSeen {s : State} (h : s.resetSeen = true) (c : CommandStep) :
    (afterCommandStep c s).resetSeen = true := by
  cases c with
  | command r => exact (afterRequest_resetSeen r s).trans h
  | reset => rfl

/-- Runs compose. -/
theorem runCommands_append (cs ds : List CommandStep) (s : State) :
    ∃ t, runCommands cs s = .next t ∧ runCommands (cs ++ ds) s = runCommands ds t := by
  induction cs generalizing s with
  | nil => exact ⟨s, rfl, rfl⟩
  | cons c cs ih => simpa using ih (afterCommandStep c s)

/-- A run of the command-level model always answers a next state. -/
theorem runCommands_total (cs : List CommandStep) (s : State) : ∃ t, runCommands cs s = .next t := by
  induction cs generalizing s with
  | nil => exact ⟨s, rfl⟩
  | cons c cs ih => rw [runCommands_cons]; exact ih _

/-- A run from a state after the first reset ends in one. -/
theorem runCommands_resetSeen {cs : List CommandStep} {s t : State} (hs : s.resetSeen = true)
    (h : runCommands cs s = .next t) : t.resetSeen = true := by
  induction cs generalizing s with
  | nil =>
    cases h
    exact hs
  | cons c cs ih =>
    rw [runCommands_cons] at h
    exact ih (afterCommandStep_resetSeen hs c) h

/-- After the first reset, a run's visible part is a function of the visible part it starts from. -/
theorem visible_runCommands_congr (cs : List CommandStep) {s t u : State} (hs : s.resetSeen = true)
    (ht : t.resetSeen = true) (h : visible s = visible t) (hu : runCommands cs s = .next u) :
    ∃ v, runCommands cs t = .next v ∧ visible u = visible v := by
  induction cs generalizing s t with
  | nil =>
    cases hu
    exact ⟨t, rfl, h⟩
  | cons c cs ih =>
    rw [runCommands_cons] at hu ⊢
    refine ih (afterCommandStep_resetSeen hs c) (afterCommandStep_resetSeen ht c) ?_ hu
    cases c with
    | reset => rfl
    | command r =>
      simp only [afterCommandStep, afterRequest_of_resetSeen hs, afterRequest_of_resetSeen ht]
      exact visible_performed_congr rfl h

/-- The operands at 128 bits are the latched values whole (20_memory.md R36). -/
@[simp] theorem atWidth_w128 (v : Word) : atWidth .w128 v = v.toNat := Nat.mod_eq_of_lt v.isLt

theorem atWidth_lt (w : Width) (v : Word) : atWidth w v < 2 ^ w.bits := Nat.mod_lt _ (Nat.two_pow_pos _)

/-- A value that fits the width is read as it stands. -/
theorem atWidth_ofNat {w : Width} {n : Nat} (h : n < 2 ^ w.bits) : atWidth w (BitVec.ofNat 128 n) = n := by
  have hw : 2 ^ w.bits ≤ 2 ^ 128 := Nat.pow_le_pow_right (by decide) (by cases w <;> decide)
  simp only [atWidth, modulus, BitVec.toNat_ofNat]
  rw [Nat.mod_eq_of_lt (Nat.lt_of_lt_of_le h hw), Nat.mod_eq_of_lt h]

theorem zeroFlag_iff (v : Word) : zeroFlag v = true ↔ v = 0 := by simp [zeroFlag]

end Sys2Proof.Machine
end

