-- ==== Sys2Proof/Laws/Count.lean ====
section
/-! SUPPORT. What `ctz`, `bitlen` and `clz` compute (44_count.md R77, R78). -/

namespace Sys2Proof.Machine

theorem ctz_le (n v : Nat) : ctz n v ≤ n := by
  induction n generalizing v with
  | zero => simp [ctz]
  | succ n ih =>
    simp only [ctz]
    split
    · omega
    · exact Nat.succ_le_succ (ih _)

/-- The bits below the count are zero. -/
theorem testBit_of_lt_ctz {n v j : Nat} (h : j < ctz n v) : v.testBit j = false := by
  induction n generalizing v j with
  | zero => simp [ctz] at h
  | succ n ih =>
    simp only [ctz] at h
    split at h
    · omega
    · cases j with
      | zero => simp [Nat.testBit_zero]; omega
      | succ j => rw [Nat.testBit_succ]; exact ih (by omega)

/-- Where the count stops below the width, it stops at a set bit. -/
theorem testBit_ctz {n v : Nat} (h : ctz n v < n) : v.testBit (ctz n v) = true := by
  induction n generalizing v with
  | zero => omega
  | succ n ih =>
    simp only [ctz] at h ⊢
    split
    · simpa [Nat.testBit_zero]
    · rename_i h1
      rw [if_neg h1] at h
      rw [Nat.testBit_succ]
      exact ih (by omega)

@[simp] theorem ctz_zero (n : Nat) : ctz n 0 = n := by
  induction n with
  | zero => rfl
  | succ n ih => simp [ctz, ih]

/-- The count of a value that is not zero stops below the width. -/
theorem ctz_lt {n v : Nat} (h0 : v ≠ 0) (hv : v < 2 ^ n) : ctz n v < n := by
  refine Nat.lt_of_le_of_ne (ctz_le n v) fun he => h0 (Nat.eq_of_testBit_eq fun i => ?_)
  rw [Nat.zero_testBit]
  by_cases hi : i < n
  · exact testBit_of_lt_ctz (he ▸ hi)
  · exact Nat.testBit_lt_two_pow (Nat.lt_of_lt_of_le hv (Nat.pow_le_pow_right (by decide) (by omega)))

/-- The powers of two that divide a value are those up to its count (R77). -/
theorem two_pow_dvd_iff_le_ctz {n v k : Nat} (hv : v < 2 ^ n) (hk : k ≤ n) : 2 ^ k ∣ v ↔ k ≤ ctz n v := by
  constructor
  · intro h
    by_contra hc
    have h1 := testBit_ctz (n := n) (v := v) (by omega)
    obtain ⟨c, rfl⟩ := h
    rw [Nat.testBit_two_pow_mul] at h1
    simp at h1
    omega
  · intro h
    rw [Nat.dvd_iff_mod_eq_zero]
    apply Nat.eq_of_testBit_eq
    intro i
    rw [Nat.testBit_mod_two_pow, Nat.zero_testBit]
    by_cases hi : i < k
    · rw [testBit_of_lt_ctz (Nat.lt_of_lt_of_le hi h), Bool.and_false]
    · simp [hi]

theorem bitlen_le (n v : Nat) : bitlen n v ≤ n := by
  induction n generalizing v with
  | zero => simp [bitlen]
  | succ n ih =>
    simp only [bitlen]
    split
    · omega
    · exact Nat.succ_le_succ (ih _)

theorem lt_two_pow_bitlen {n v : Nat} (h : v < 2 ^ n) : v < 2 ^ bitlen n v := by
  induction n generalizing v with
  | zero => simpa [bitlen] using h
  | succ n ih =>
    simp only [bitlen]
    split
    · omega
    · have := ih (v := v / 2) (by rw [Nat.pow_succ] at h; omega)
      rw [Nat.pow_succ]; omega

/-- `bitlen` is the least such exponent (R78). -/
theorem bitlen_le_of_lt {n v k : Nat} (h : v < 2 ^ k) : bitlen n v ≤ k := by
  induction n generalizing v k with
  | zero => simp [bitlen]
  | succ n ih =>
    simp only [bitlen]
    split
    · omega
    · cases k with
      | zero => simp at h; omega
      | succ k => exact Nat.succ_le_succ (ih (by rw [Nat.pow_succ] at h; omega))

theorem clz_le (n v : Nat) : clz n v ≤ n := Nat.sub_le _ _

/-- `N - clz_N(v)` is `bitlen(v)` (R78). -/
theorem sub_clz (n v : Nat) : n - clz n v = bitlen n v := by
  have := bitlen_le n v
  unfold clz
  omega

/-! ### Bits and halves as numbers (00_scope.md R10) -/

theorem getLsbD_eq_testBit (v : Word) (i : Nat) : v.getLsbD i = v.toNat.testBit i := rfl

theorem toNat_lt_w128 (v : Word) : v.toNat < 2 ^ Width.w128.bits := v.isLt

theorem mod_lt_w32 (n : Nat) : n % 2 ^ 32 < 2 ^ Width.w32.bits := Nat.mod_lt _ (by decide)

theorem testBit_atWidth32 (v : Word) (i : Nat) :
    (v.toNat % 2 ^ 32).testBit i = (decide (i < 32) && v.getLsbD i) := by
  rw [Nat.testBit_mod_two_pow]
  rfl

theorem testBit_complement {n v : Nat} (h : v < 2 ^ n) (i : Nat) :
    (2 ^ n - 1 - v).testBit i = (decide (i < n) && !v.testBit i) := by
  rw [show 2 ^ n - 1 - v = 2 ^ n - (v + 1) by omega, Nat.testBit_two_pow_sub_succ h]

theorem toNat_hi (v : Word) : (hi v).toNat = v.toNat / 2 ^ 64 := by
  have := v.isLt
  simp only [hi, BitVec.extractLsb'_toNat, Nat.shiftRight_eq_div_pow]
  omega

theorem toNat_lo (v : Word) : (lo v).toNat = v.toNat % 2 ^ 64 := by
  simp only [lo, BitVec.extractLsb'_toNat, Nat.shiftRight_zero]

/-- `v = hi(v) * 2^64 + lo(v)` (R10). -/
theorem toNat_eq_halves (v : Word) : v.toNat = (hi v).toNat * 2 ^ 64 + (lo v).toNat := by
  rw [toNat_hi, toNat_lo]
  omega

end Sys2Proof.Machine
end

