-- ==== Sys2Proof/Laws/Edge.lean ====
section
/-! SUPPORT. What one clock edge can do (70_reset_and_hazards.md R93 to R103), one lemma per kind of edge and the case
analysis over all of them. -/

namespace Sys2Proof.Machine

/-- R92. -/
theorem step_secondAgent {s : State} (h : (portSample s).secondAgent = true) : step s = .refused .secondAgent := by
  simp [step, clockEdge, edge, h]

/-- R93. -/
theorem step_reset {s : State} (h2 : (portSample s).secondAgent = false) (hr : (portSample s).rst = true) :
    step s = .next (resetUnit (dropSample s)) := by
  simp [step, clockEdge, edge, h2, hr]

/-- R95. -/
theorem step_beforeReset {s : State} (h : Quiet (portSample s)) (hs : s.resetSeen = false) :
    step s = .next (drawPowerUp (dropSample s)) := by
  simp [step, clockEdge, edge, h.1, h.2, hs]

/-- R99: the completion edge of a command in flight. -/
theorem step_completion {s : State} (h : Quiet (portSample s)) (hs : s.resetSeen = true) (hb : s.busy = true)
    (hr : s.remaining ≤ 1) : step s = .next (performed (endFlight (dropSample s))) := by
  simp [step, clockEdge, edge, flightEdge, h.1, h.2, hs, hb, hr]

/-- R100: an edge before it. -/
theorem step_wait {s : State} (h : Quiet (portSample s)) (hs : s.resetSeen = true) (hb : s.busy = true)
    (hr : ¬ s.remaining ≤ 1) : step s = .next (waitEdge (dropSample s)) := by
  simp [step, clockEdge, edge, flightEdge, h.1, h.2, hs, hb, hr]

/-- The state with the sampled command in the latch (R97). -/
def accepted (s : State) : State :=
  latchCommand (portSample s).cmd (portSample s).a (portSample s).b (dropSample s)

/-- R97, R99 with `LATENCY = 1`: the acceptance edge is the completion edge. -/
theorem step_acceptAndComplete {s : State} (h : Quiet (portSample s)) (hs : s.resetSeen = true) (hb : s.busy = false)
    (hv : (portSample s).cmdValid = true) (hl : s.latencyMinusOne = 0) :
    step s = .next (performed (endFlight (accepted s))) := by
  simp [step, clockEdge, edge, readyEdge, accept, accepted, h.1, h.2, hs, hb, hv, hl]

/-- R97 with `LATENCY >= 2`. -/
theorem step_accept {s : State} (h : Quiet (portSample s)) (hs : s.resetSeen = true) (hb : s.busy = false)
    (hv : (portSample s).cmdValid = true) (hl : s.latencyMinusOne ≠ 0) :
    step s = .next (startFlight (accepted s)) := by
  simp [step, clockEdge, edge, readyEdge, accept, accepted, h.1, h.2, hs, hb, hv, hl]

/-- No offer. -/
theorem step_idle {s : State} (h : Quiet (portSample s)) (hs : s.resetSeen = true) (hb : s.busy = false)
    (hv : (portSample s).cmdValid = false) : step s = .next (dropSample s) := by
  simp [step, clockEdge, edge, readyEdge, h.1, h.2, hs, hb, hv]

/-- What a step can answer: a refusal of a second agent, or one of seven kinds of edge. -/
inductive EdgeCase (s : State) : Prop where
  | secondAgent (h : (portSample s).secondAgent = true)
  | reset (h2 : (portSample s).secondAgent = false) (hr : (portSample s).rst = true)
  | beforeReset (h : Quiet (portSample s)) (hs : s.resetSeen = false)
  | completion (h : Quiet (portSample s)) (hs : s.resetSeen = true) (hb : s.busy = true) (hr : s.remaining ≤ 1)
  | wait (h : Quiet (portSample s)) (hs : s.resetSeen = true) (hb : s.busy = true) (hr : ¬ s.remaining ≤ 1)
  | acceptAndComplete (h : Quiet (portSample s)) (hs : s.resetSeen = true) (hb : s.busy = false)
      (hv : (portSample s).cmdValid = true) (hl : s.latencyMinusOne = 0)
  | accept (h : Quiet (portSample s)) (hs : s.resetSeen = true) (hb : s.busy = false)
      (hv : (portSample s).cmdValid = true) (hl : s.latencyMinusOne ≠ 0)
  | idle (h : Quiet (portSample s)) (hs : s.resetSeen = true) (hb : s.busy = false)
      (hv : (portSample s).cmdValid = false)

theorem edgeCase (s : State) : EdgeCase s := by
  cases h2 : (portSample s).secondAgent with
  | true => exact .secondAgent h2
  | false =>
    cases hr : (portSample s).rst with
    | true => exact .reset h2 hr
    | false =>
      cases hs : s.resetSeen with
      | false => exact .beforeReset ⟨hr, h2⟩ hs
      | true =>
        cases hb : s.busy with
        | true =>
          by_cases hk : s.remaining ≤ 1
          · exact .completion ⟨hr, h2⟩ hs hb hk
          · exact .wait ⟨hr, h2⟩ hs hb hk
        | false =>
          cases hv : (portSample s).cmdValid with
          | false => exact .idle ⟨hr, h2⟩ hs hb hv
          | true =>
            by_cases hl : s.latencyMinusOne = 0
            · exact .acceptAndComplete ⟨hr, h2⟩ hs hb hv hl
            · exact .accept ⟨hr, h2⟩ hs hb hv hl

@[simp] theorem run_zero (s : State) : Host.Core.run Sys2Proof.core 0 s = .next s := rfl

/-- One more edge in front of a run. -/
theorem run_succ_of_step {s t : State} (h : step s = .next t) (k : Nat) :
    Host.Core.run Sys2Proof.core (k + 1) s = Host.Core.run Sys2Proof.core k t := by
  have h' : Sys2Proof.core.step s = .next t := h
  simp only [Host.Core.run, h']

/-- A run that reaches a state went through the state of its first edge. -/
theorem step_of_run_succ {s t : State} {k : Nat} (h : Host.Core.run Sys2Proof.core (k + 1) s = .next t) :
    ∃ u, step s = .next u ∧ Host.Core.run Sys2Proof.core k u = .next t := by
  have e : Sys2Proof.core.step s = step s := rfl
  cases hs : step s with
  | next u => exact ⟨u, rfl, by rw [← run_succ_of_step hs]; exact h⟩
  | fault r => exact nomatch r
  | refused r => simp [Host.Core.run, e, hs] at h

/-- Runs of edges compose. -/
theorem run_add {s t : State} {j : Nat} (k : Nat) (h : Host.Core.run Sys2Proof.core j s = .next t) :
    Host.Core.run Sys2Proof.core (j + k) s = Host.Core.run Sys2Proof.core k t := by
  induction j generalizing s with
  | zero =>
    cases h
    rw [Nat.zero_add]
  | succ j ih =>
    obtain ⟨u, hu, hr⟩ := step_of_run_succ h
    rw [Nat.add_right_comm, run_succ_of_step hu, ih hr]

/-- The samples of the next edges, one by one: where the drive has ended, the host idles. -/
theorem portSample_of_forall {P : EdgeInput → Prop} {s : State} {k : Nat} (hk : k ≠ 0) (hi : P idleInput)
    (h : ∀ p ∈ s.inputs.take k, P p) : P (portSample s) := by
  unfold portSample
  cases hs : s.inputs with
  | nil => exact hi
  | cons e es =>
    obtain ⟨j, rfl⟩ := Nat.exists_eq_succ_of_ne_zero hk
    exact h e (by simp [hs])

@[simp] theorem portSample_cons {s : State} {e : EdgeInput} {es : List EdgeInput} (h : s.inputs = e :: es) :
    portSample s = e := by
  simp [portSample, h]

end Sys2Proof.Machine
end

