-- ==== Sys2Proof/Laws/PerInstr.lean ====
section
/-! SUPPORT. What holds of each command's word, one lemma per constructor (30_encoding.md R44 to R47). -/

namespace Sys2Proof.Laws.Encoding

/-- A command is well formed, its word has `RSVD = 000`, and its `WS` and `OP` fields are those of its width and
operation. -/
def Statement (i : Instr) : Prop :=
  i.wellFormed = true ∧ fieldRsvd (encode i) = 0#3 ∧ decodeWidth (fieldWs (encode i)) = i.width ∧
    decodeOp (fieldOp (encode i)) = some i.op ∧ Instr.ofOp i.op i.width = i

theorem add32 : Statement .add32 := by simp only [Statement]; decide
theorem sub32 : Statement .sub32 := by simp only [Statement]; decide
theorem shl32 : Statement .shl32 := by simp only [Statement]; decide
theorem shr32 : Statement .shr32 := by simp only [Statement]; decide
theorem cmp32 : Statement .cmp32 := by simp only [Statement]; decide
theorem and32 : Statement .and32 := by simp only [Statement]; decide
theorem or32 : Statement .or32 := by simp only [Statement]; decide
theorem not32 : Statement .not32 := by simp only [Statement]; decide
theorem ctz32 : Statement .ctz32 := by simp only [Statement]; decide
theorem clz32 : Statement .clz32 := by simp only [Statement]; decide
theorem add128 : Statement .add128 := by simp only [Statement]; decide
theorem sub128 : Statement .sub128 := by simp only [Statement]; decide
theorem shl128 : Statement .shl128 := by simp only [Statement]; decide
theorem shr128 : Statement .shr128 := by simp only [Statement]; decide
theorem cmp128 : Statement .cmp128 := by simp only [Statement]; decide
theorem and128 : Statement .and128 := by simp only [Statement]; decide
theorem or128 : Statement .or128 := by simp only [Statement]; decide
theorem not128 : Statement .not128 := by simp only [Statement]; decide
theorem ctz128 : Statement .ctz128 := by simp only [Statement]; decide
theorem clz128 : Statement .clz128 := by simp only [Statement]; decide

end Sys2Proof.Laws.Encoding
end

