-- ==== Sys2Proof/Laws/Result.lean ====
section
/-! SUPPORT. Every result fits the operating width, so `zext_128` (00_scope.md R11) loses nothing. -/

namespace Sys2Proof.Machine

theorem two_pow_bits_le (w : Width) : 2 ^ w.bits ≤ 2 ^ 128 :=
  Nat.pow_le_pow_right (by decide) (by cases w <;> decide)

theorem bits_lt_modulus (w : Width) : w.bits < 2 ^ w.bits := Nat.lt_two_pow_self

theorem addResult_lt (w : Width) (a b : Nat) : (addResult w a b).res < 2 ^ w.bits :=
  Nat.mod_lt _ (Nat.two_pow_pos _)

theorem subResult_lt {w : Width} {a b : Nat} (ha : a < 2 ^ w.bits) :
    (subResult w a b).res < 2 ^ w.bits := by
  simp only [subResult, modulus]
  split <;> omega

theorem shlResult_lt (w : Width) (a n : Nat) : (shlResult w a n).res < 2 ^ w.bits := by
  simp only [shlResult, plainResult, modulus]
  split
  · exact Nat.mod_lt _ (Nat.two_pow_pos _)
  · exact Nat.two_pow_pos _

theorem shrResult_lt {w : Width} {a : Nat} (n : Nat) (ha : a < 2 ^ w.bits) : (shrResult w a n).res < 2 ^ w.bits := by
  simp only [shrResult, plainResult]
  split
  · exact Nat.lt_of_le_of_lt (Nat.div_le_self _ _) ha
  · exact Nat.two_pow_pos _

theorem cmpResult_lt (w : Width) (a b : Nat) : (cmpResult a b).res < 2 ^ w.bits := by
  have h : (cmpResult a b).res < 4 := (ordBits (compareOrd a b)).isLt
  exact Nat.lt_of_lt_of_le h (by cases w <;> decide)

theorem andResult_lt {w : Width} {a : Nat} (b : Nat) (ha : a < 2 ^ w.bits) : (andResult a b).res < 2 ^ w.bits :=
  Nat.lt_of_le_of_lt Nat.and_le_left ha

theorem orResult_lt {w : Width} {a b : Nat} (ha : a < 2 ^ w.bits) (hb : b < 2 ^ w.bits) :
    (orResult a b).res < 2 ^ w.bits :=
  Nat.or_lt_two_pow ha hb

theorem notResult_lt (w : Width) (a : Nat) : (notResult w a).res < 2 ^ w.bits := by
  have := Nat.two_pow_pos w.bits
  simp only [notResult, plainResult, modulus]
  omega

theorem ctzResult_lt (w : Width) (a : Nat) : (ctzResult w a).res < 2 ^ w.bits :=
  Nat.lt_of_le_of_lt (ctz_le _ _) (bits_lt_modulus w)

theorem clzResult_lt (w : Width) (a : Nat) : (clzResult w a).res < 2 ^ w.bits :=
  Nat.lt_of_le_of_lt (clz_le _ _) (bits_lt_modulus w)

/-- The result of every operation is below `2^W` (10_state.md R16). -/
theorem opResult_lt (o : Op) {w : Width} {a b : Nat} (ha : a < 2 ^ w.bits) (hb : b < 2 ^ w.bits) :
    (opResult o w a b).res < 2 ^ w.bits := by
  cases o with
  | add => exact addResult_lt _ _ _
  | sub => exact subResult_lt ha
  | shl => exact shlResult_lt _ _ _
  | shr => exact shrResult_lt _ ha
  | cmp => exact cmpResult_lt _ _ _
  | and => exact andResult_lt _ ha
  | or => exact orResult_lt ha hb
  | not => exact notResult_lt _ _
  | ctz => exact ctzResult_lt _ _
  | clz => exact clzResult_lt _ _

theorem commandResult_lt (i : Instr) (l : Latch) : (commandResult i l).res < 2 ^ i.width.bits :=
  opResult_lt i.op (atWidth_lt _ _) (atWidth_lt _ _)

/-- `Y` holds a result that fits a width as a number. -/
theorem writeResult_toNat {r : Result} {w : Width} (h : r.res < 2 ^ w.bits) (s : State) :
    (writeResult r s).y.toNat = r.res := by
  rw [writeResult_y, BitVec.toNat_ofNat, Nat.mod_eq_of_lt (Nat.lt_of_lt_of_le h (two_pow_bits_le w))]

theorem writeResult_z_iff (r : Result) (s : State) : (writeResult r s).z = true ↔ (writeResult r s).y = 0 := by
  rw [writeResult_z, writeResult_y, zeroFlag_iff]

theorem onlyResults_writeResult (r : Result) (s : State) : OnlyResults s (writeResult r s) := rfl

/-! ### The parts of each result -/

@[simp] theorem bits_w32 : Width.w32.bits = 32 := rfl
@[simp] theorem bits_w128 : Width.w128.bits = 128 := rfl

@[simp] theorem addResult_res (w : Width) (a b : Nat) : (addResult w a b).res = (a + b) % 2 ^ w.bits := rfl
@[simp] theorem addResult_ord (w : Width) (a b : Nat) : (addResult w a b).ord = .none := rfl
@[simp] theorem addResult_c (w : Width) (a b : Nat) : (addResult w a b).c = true ↔ 2 ^ w.bits ≤ a + b :=
  decide_eq_true_iff
theorem subResult_res_of_le (w : Width) {a b : Nat} (h : b ≤ a) : (subResult w a b).res = a - b := if_pos h
theorem subResult_res_of_lt (w : Width) {a b : Nat} (h : a < b) : (subResult w a b).res = a + 2 ^ w.bits - b :=
  if_neg (Nat.not_le.mpr h)
@[simp] theorem subResult_ord (w : Width) (a b : Nat) : (subResult w a b).ord = .none := rfl
@[simp] theorem subResult_c (w : Width) (a b : Nat) : (subResult w a b).c = true ↔ a < b := decide_eq_true_iff
theorem shlResult_res_of_lt {w : Width} {n : Nat} (a : Nat) (h : n < w.bits) :
    (shlResult w a n).res = a * 2 ^ n % 2 ^ w.bits := if_pos h
theorem shlResult_res_of_le {w : Width} {n : Nat} (a : Nat) (h : w.bits ≤ n) : (shlResult w a n).res = 0 :=
  if_neg (Nat.not_lt.mpr h)
@[simp] theorem shlResult_c (w : Width) (a n : Nat) : (shlResult w a n).c = false := rfl
@[simp] theorem shlResult_ord (w : Width) (a n : Nat) : (shlResult w a n).ord = .none := rfl
theorem shrResult_res_of_lt {w : Width} {n : Nat} (a : Nat) (h : n < w.bits) : (shrResult w a n).res = a / 2 ^ n :=
  if_pos h
theorem shrResult_res_of_le {w : Width} {n : Nat} (a : Nat) (h : w.bits ≤ n) : (shrResult w a n).res = 0 :=
  if_neg (Nat.not_lt.mpr h)
@[simp] theorem shrResult_c (w : Width) (a n : Nat) : (shrResult w a n).c = false := rfl
@[simp] theorem shrResult_ord (w : Width) (a n : Nat) : (shrResult w a n).ord = .none := rfl
@[simp] theorem cmpResult_res (a b : Nat) : (cmpResult a b).res = (ordBits (compareOrd a b)).toNat := rfl
@[simp] theorem cmpResult_ord (a b : Nat) : (cmpResult a b).ord = compareOrd a b := rfl
@[simp] theorem cmpResult_c (a b : Nat) : (cmpResult a b).c = true ↔ a < b := decide_eq_true_iff
@[simp] theorem andResult_res (a b : Nat) : (andResult a b).res = a &&& b := rfl
@[simp] theorem andResult_c (a b : Nat) : (andResult a b).c = false := rfl
@[simp] theorem andResult_ord (a b : Nat) : (andResult a b).ord = .none := rfl
@[simp] theorem orResult_res (a b : Nat) : (orResult a b).res = a ||| b := rfl
@[simp] theorem orResult_c (a b : Nat) : (orResult a b).c = false := rfl
@[simp] theorem orResult_ord (a b : Nat) : (orResult a b).ord = .none := rfl
@[simp] theorem notResult_res (w : Width) (a : Nat) : (notResult w a).res = 2 ^ w.bits - 1 - a := rfl
@[simp] theorem notResult_c (w : Width) (a : Nat) : (notResult w a).c = false := rfl
@[simp] theorem notResult_ord (w : Width) (a : Nat) : (notResult w a).ord = .none := rfl
@[simp] theorem ctzResult_res (w : Width) (a : Nat) : (ctzResult w a).res = ctz w.bits a := rfl
@[simp] theorem ctzResult_c (w : Width) (a : Nat) : (ctzResult w a).c = false := rfl
@[simp] theorem ctzResult_ord (w : Width) (a : Nat) : (ctzResult w a).ord = .none := rfl
@[simp] theorem clzResult_res (w : Width) (a : Nat) : (clzResult w a).res = clz w.bits a := rfl
@[simp] theorem clzResult_c (w : Width) (a : Nat) : (clzResult w a).c = false := rfl
@[simp] theorem clzResult_ord (w : Width) (a : Nat) : (clzResult w a).ord = .none := rfl

/-! ### The outcome of a comparison (42_compare.md R70) -/

theorem compareOrd_eq_iff (a b : Nat) : compareOrd a b = .eq ↔ a = b := by
  unfold compareOrd
  split
  · simp_all
  · split <;> simp_all

theorem compareOrd_gt_iff (a b : Nat) : compareOrd a b = .gt ↔ b < a := by
  unfold compareOrd
  split
  · simp_all
  · split <;> simp_all

theorem compareOrd_lt_iff (a b : Nat) : compareOrd a b = .lt ↔ a < b := by
  unfold compareOrd
  split
  · simp_all
  · split <;> simp_all <;> omega

theorem compareOrd_ne_none (a b : Nat) : compareOrd a b ≠ .none := by
  unfold compareOrd
  split
  · simp
  · split <;> simp

theorem cmpResult_y (a b : Nat) : BitVec.ofNat 128 (cmpResult a b).res = (ordBits (compareOrd a b)).setWidth 128 := by
  rw [cmpResult_res]
  cases compareOrd a b <;> decide

/-- Only CMP writes an outcome into `ORD` (10_state.md R19). -/
theorem commandResult_ord_of_ne {i : Instr} (l : Latch) (h : i.op ≠ .cmp) : (commandResult i l).ord = .none := by
  unfold commandResult
  cases ho : i.op <;> first | rfl | exact absurd ho h

theorem commandResult_of_cmp {i : Instr} (l : Latch) (h : i.op = .cmp) :
    commandResult i l = cmpResult (atWidth i.width l.a) (atWidth i.width l.b) := by
  simp only [commandResult, h, opResult]

/-! ### Each command on its operands, with the widths written out (20_memory.md R36) -/

theorem exec_add32 (s : State) :
    exec .add32 s = .next (writeResult (addResult .w32 (s.latch.a.toNat % 2 ^ 32) (s.latch.b.toNat % 2 ^ 32)) s) := rfl

theorem exec_add128 (s : State) :
    exec .add128 s = .next (writeResult (addResult .w128 s.latch.a.toNat s.latch.b.toNat) s) := by
  rw [exec_eq]
  simp only [commandResult, Instr.op, Instr.width, opResult, atWidth_w128]

theorem exec_sub32 (s : State) :
    exec .sub32 s = .next (writeResult (subResult .w32 (s.latch.a.toNat % 2 ^ 32) (s.latch.b.toNat % 2 ^ 32)) s) := rfl

theorem exec_sub128 (s : State) :
    exec .sub128 s = .next (writeResult (subResult .w128 s.latch.a.toNat s.latch.b.toNat) s) := by
  rw [exec_eq]
  simp only [commandResult, Instr.op, Instr.width, opResult, atWidth_w128]

theorem exec_shl32 (s : State) :
    exec .shl32 s = .next (writeResult (shlResult .w32 (s.latch.a.toNat % 2 ^ 32) (s.latch.b.toNat % 2 ^ 32)) s) := rfl

theorem exec_shl128 (s : State) :
    exec .shl128 s = .next (writeResult (shlResult .w128 s.latch.a.toNat s.latch.b.toNat) s) := by
  rw [exec_eq]
  simp only [commandResult, Instr.op, Instr.width, opResult, atWidth_w128]

theorem exec_shr32 (s : State) :
    exec .shr32 s = .next (writeResult (shrResult .w32 (s.latch.a.toNat % 2 ^ 32) (s.latch.b.toNat % 2 ^ 32)) s) := rfl

theorem exec_shr128 (s : State) :
    exec .shr128 s = .next (writeResult (shrResult .w128 s.latch.a.toNat s.latch.b.toNat) s) := by
  rw [exec_eq]
  simp only [commandResult, Instr.op, Instr.width, opResult, atWidth_w128]

theorem exec_cmp32 (s : State) :
    exec .cmp32 s = .next (writeResult (cmpResult (s.latch.a.toNat % 2 ^ 32) (s.latch.b.toNat % 2 ^ 32)) s) := rfl

theorem exec_cmp128 (s : State) :
    exec .cmp128 s = .next (writeResult (cmpResult s.latch.a.toNat s.latch.b.toNat) s) := by
  rw [exec_eq]
  simp only [commandResult, Instr.op, Instr.width, opResult, atWidth_w128]

theorem exec_and32 (s : State) :
    exec .and32 s = .next (writeResult (andResult (s.latch.a.toNat % 2 ^ 32) (s.latch.b.toNat % 2 ^ 32)) s) := rfl

theorem exec_and128 (s : State) :
    exec .and128 s = .next (writeResult (andResult s.latch.a.toNat s.latch.b.toNat) s) := by
  rw [exec_eq]
  simp only [commandResult, Instr.op, Instr.width, opResult, atWidth_w128]

theorem exec_or32 (s : State) :
    exec .or32 s = .next (writeResult (orResult (s.latch.a.toNat % 2 ^ 32) (s.latch.b.toNat % 2 ^ 32)) s) := rfl

theorem exec_or128 (s : State) :
    exec .or128 s = .next (writeResult (orResult s.latch.a.toNat s.latch.b.toNat) s) := by
  rw [exec_eq]
  simp only [commandResult, Instr.op, Instr.width, opResult, atWidth_w128]

theorem exec_not32 (s : State) :
    exec .not32 s = .next (writeResult (notResult .w32 (s.latch.a.toNat % 2 ^ 32)) s) := rfl

theorem exec_not128 (s : State) :
    exec .not128 s = .next (writeResult (notResult .w128 s.latch.a.toNat) s) := by
  rw [exec_eq]
  simp only [commandResult, Instr.op, Instr.width, opResult, atWidth_w128]

theorem exec_ctz32 (s : State) :
    exec .ctz32 s = .next (writeResult (ctzResult .w32 (s.latch.a.toNat % 2 ^ 32)) s) := rfl

theorem exec_ctz128 (s : State) :
    exec .ctz128 s = .next (writeResult (ctzResult .w128 s.latch.a.toNat) s) := by
  rw [exec_eq]
  simp only [commandResult, Instr.op, Instr.width, opResult, atWidth_w128]

theorem exec_clz32 (s : State) :
    exec .clz32 s = .next (writeResult (clzResult .w32 (s.latch.a.toNat % 2 ^ 32)) s) := rfl

theorem exec_clz128 (s : State) :
    exec .clz128 s = .next (writeResult (clzResult .w128 s.latch.a.toNat) s) := by
  rw [exec_eq]
  simp only [commandResult, Instr.op, Instr.width, opResult, atWidth_w128]

/-! ### The host's lines (30_encoding.md R55, R58) -/

theorem op_ofOp (o : Op) (w : Width) : (Instr.ofOp o w).op = o := by cases o <;> cases w <;> rfl

theorem width_ofOp (o : Op) (w : Width) : (Instr.ofOp o w).width = w := by cases o <;> cases w <;> rfl

/-- The state after the host has issued one operation on two values of its width. -/
def afterLine (o : Op) (w : Width) (a b : Nat) (s : State) : State :=
  writeResult (opResult o w a b)
    (latchCommand (encode (Instr.ofOp o w)) (BitVec.ofNat 128 a) (BitVec.ofNat 128 b) s)

@[simp] theorem afterLine_resetSeen (o : Op) (w : Width) (a b : Nat) (s : State) :
    (afterLine o w a b s).resetSeen = s.resetSeen := rfl

theorem runLines_values {o : Op} {w : Width} {a b : Nat} {s : State} (hs : s.resetSeen = true) (ha : a < 2 ^ w.bits)
    (hb : b < 2 ^ w.bits) (ls : List AsmLine) :
    runLines (lineOf o w (.value a) (.value b) :: ls) s = runLines ls (afterLine o w a b s) := by
  simp only [runLines, lineRequest, lineOf, operandValue, performRequest_eq, afterRequest_of_resetSeen hs]
  have hd : decode (encode (Instr.ofOp o w)) = .ok (Instr.ofOp o w) := by cases o <;> cases w <;> decide
  rw [performed_of_ok (by rw [latchCommand_latch]; exact hd)]
  simp only [commandResult, latchCommand_latch, op_ofOp, width_ofOp, atWidth_ofNat ha, atWidth_ofNat hb, afterLine]

/-- `Y` after a line is below `2^W`, so it is a value of the width for the next line. -/
theorem afterLine_y {o : Op} {w : Width} {a b : Nat} (ha : a < 2 ^ w.bits) (hb : b < 2 ^ w.bits) (s : State) :
    (afterLine o w a b s).y.toNat = (opResult o w a b).res :=
  writeResult_toNat (opResult_lt o ha hb) _

theorem afterLine_y_lt {o : Op} {w : Width} {a b : Nat} (ha : a < 2 ^ w.bits) (hb : b < 2 ^ w.bits) (s : State) :
    (afterLine o w a b s).y.toNat < 2 ^ w.bits := by
  rw [afterLine_y ha hb]
  exact opResult_lt o ha hb

@[simp] theorem afterLine_c (o : Op) (w : Width) (a b : Nat) (s : State) :
    (afterLine o w a b s).c = (opResult o w a b).c := rfl

@[simp] theorem afterLine_ord (o : Op) (w : Width) (a b : Nat) (s : State) :
    (afterLine o w a b s).ord = (opResult o w a b).ord := rfl

/-- An operand `Y` is the value the host read (R57). -/
theorem runLines_resultY_value (o : Op) (w : Width) (b : Nat) (ls : List AsmLine) (s : State) :
    runLines (lineOf o w .resultY (.value b) :: ls) s =
      runLines (lineOf o w (.value s.y.toNat) (.value b) :: ls) s := by
  simp only [runLines, lineRequest, lineOf, operandValue, BitVec.ofNat_toNat, BitVec.setWidth_eq]

theorem runLines_value_resultY (o : Op) (w : Width) (a : Nat) (ls : List AsmLine) (s : State) :
    runLines (lineOf o w (.value a) .resultY :: ls) s =
      runLines (lineOf o w (.value a) (.value s.y.toNat) :: ls) s := by
  simp only [runLines, lineRequest, lineOf, operandValue, BitVec.ofNat_toNat, BitVec.setWidth_eq]

end Sys2Proof.Machine
end

