-- ==== Sys2Proof/Laws/Text.lean ====
section
/-! SUPPORT. What the pieces of the assembler's reader do with what its printer writes (30_encoding.md R55, R56), one
lemma or two per function. -/

namespace Sys2Proof.Machine

/-- What `parseLine` reads: what `parseText` reads, where the values fit. -/
theorem parseLine_eq_some {cs : List Char} {t : AsmText} :
    parseLine cs = some t ↔ parseText cs = some t ∧ t.wellFormed = true := by
  unfold parseLine
  cases parseText cs with
  | none => simp
  | some u =>
    by_cases h : u.wellFormed = true
    · simp only [h, if_true, Option.some.injEq]
      exact ⟨fun e => ⟨e, e ▸ h⟩, And.left⟩
    · simp only [h, Option.some.injEq]
      constructor
      · simp
      · rintro ⟨rfl, h'⟩
        exact absurd h' h

/-- A line whose values do not fit is refused (R56). -/
theorem parseLine_eq_none {cs : List Char} {t : AsmText} (h : parseText cs = some t) (hw : t.wellFormed = false) :
    parseLine cs = none := by
  simp [parseLine, h, hw]

theorem splitAtChar_of_notMem {sep : Char} {cs : List Char} (h : sep ∉ cs) : splitAtChar sep cs = [cs] := by
  induction cs with
  | nil => rfl
  | cons c cs ih =>
    rw [List.mem_cons, not_or] at h
    simp [splitAtChar, ih h.2, Ne.symm h.1]

theorem splitAtChar_append {sep : Char} {cs : List Char} (h : sep ∉ cs) (ds : List Char) :
    splitAtChar sep (cs ++ sep :: ds) = cs :: splitAtChar sep ds := by
  induction cs with
  | nil => simp [splitAtChar]
  | cons c cs ih =>
    rw [List.mem_cons, not_or] at h
    simp [splitAtChar, ih h.2, Ne.symm h.1]

/-- Text with no blank at its two ends stays. -/
theorem trimBlanks_of_ends {cs : List Char} (h1 : cs.head? ≠ some ' ') (h2 : cs.getLast? ≠ some ' ') :
    trimBlanks cs = cs := by
  have drop : ∀ ds : List Char, ds.head? ≠ some ' ' → ds.dropWhile (· == ' ') = ds := by
    intro ds h
    cases ds with
    | nil => rfl
    | cons d ds => simp_all
  unfold trimBlanks
  rw [drop cs h1, drop cs.reverse (by rwa [List.head?_reverse]), List.reverse_reverse]

theorem trimBlanks_of_notMem {cs : List Char} (h : ' ' ∉ cs) : trimBlanks cs = cs :=
  trimBlanks_of_ends (fun e => h (List.mem_of_head? e)) (fun e => h (List.mem_of_getLast? e))

/-- One blank in front of text without blanks, as the printer writes. -/
theorem trimBlanks_cons {cs : List Char} (h : ' ' ∉ cs) : trimBlanks (' ' :: cs) = cs := by
  have e : trimBlanks (' ' :: cs) = trimBlanks cs := by simp [trimBlanks]
  rw [e, trimBlanks_of_notMem h]

/-- A digit that the printer writes reads as its value. -/
theorem digitOf_digitChar {base d : Nat} (hb : base ≤ 16) (hd : d < base) : digitOf base (Nat.digitChar d) = some d := by
  have all : ∀ b ≤ 16, ∀ d < b, digitOf b (Nat.digitChar d) = some d := by decide
  exact all base hb d hd

theorem digitsValue_append (base acc : Nat) (cs : List Char) (c : Char) :
    digitsValue base acc (cs ++ [c]) =
      (digitsValue base acc cs).bind fun v => (digitOf base c).map fun d => base * v + d := by
  induction cs generalizing acc with
  | nil => cases h : digitOf base c <;> simp [digitsValue, h]
  | cons x cs ih =>
    simp only [List.cons_append, digitsValue]
    cases digitOf base x with
    | none => rfl
    | some d => exact ih _

/-- The digits that the printer writes read as the number. -/
theorem digitsValue_toDigits {base : Nat} (h1 : 1 < base) (hb : base ≤ 16) (n : Nat) :
    digitsValue base 0 (Nat.toDigits base n) = some n := by
  induction n using Nat.strongRecOn with
  | _ n ih =>
    by_cases hn : n < base
    · simp [Nat.toDigits_of_lt_base hn, digitsValue, digitOf_digitChar hb hn]
    · have hlt : n / base < n := Nat.div_lt_self (by omega) h1
      have hmod : n % base < base := Nat.mod_lt _ (by omega)
      rw [Nat.toDigits_of_base_le h1 (by omega), digitsValue_append, ih _ hlt, Option.bind_some,
        digitOf_digitChar hb hmod, Option.map_some, Nat.div_add_mod]

/-- Every character that the printer writes for a number is a digit of its base. -/
theorem mem_toDigits {base : Nat} (h1 : 1 < base) {n : Nat} {c : Char} (h : c ∈ Nat.toDigits base n) :
    ∃ d < base, c = Nat.digitChar d := by
  induction n using Nat.strongRecOn with
  | _ n ih =>
    by_cases hn : n < base
    · rw [Nat.toDigits_of_lt_base hn] at h
      exact ⟨n, hn, by simpa using h⟩
    · rw [Nat.toDigits_of_base_le h1 (by omega), List.mem_append] at h
      rcases h with h | h
      · exact ih _ (Nat.div_lt_self (by omega) h1) h
      · exact ⟨n % base, Nat.mod_lt _ (by omega), by simpa using h⟩

/-- A character that is no digit does not stand in a printed number. -/
theorem notMem_toDigits {base n : Nat} (h1 : 1 < base) {c : Char} (hc : ∀ d < base, c ≠ Nat.digitChar d) :
    c ∉ Nat.toDigits base n := fun h =>
  let ⟨d, hd, e⟩ := mem_toDigits h1 h
  hc d hd e

theorem groupsValue_toDigits {base : Nat} (h1 : 1 < base) (hb : base ≤ 16) (n : Nat) :
    groupsValue base (Nat.toDigits base n) = some n := by
  have all : ∀ d < 16, '_' ≠ Nat.digitChar d := by decide
  have hs := splitAtChar_of_notMem (notMem_toDigits (n := n) h1 fun d hd => all d (by omega))
  have hne : Nat.toDigits base n ≠ [] := by
    rw [Nat.toDigits_eq_if h1]
    split <;> simp
  simp [groupsValue, hs, digitsValue_toDigits h1 hb, hne.symm]

/-- Numerals read back, in either base. -/
theorem parseNumeral_hex (n : Nat) : parseNumeral ('0' :: 'x' :: Nat.toDigits 16 n) = some n :=
  groupsValue_toDigits (by decide) (by decide) n

theorem parseNumeral_decimal (n : Nat) : parseNumeral (Nat.toDigits 10 n) = some n := by
  have hx : 'x' ∉ Nat.toDigits 10 n := notMem_toDigits (by decide) (by decide)
  have h := groupsValue_toDigits (base := 10) (by decide) (by decide) n
  unfold parseNumeral
  split
  · rename_i cs e
    rw [e] at hx
    simp at hx
  · exact h

/-- A printed operand holds no blank and no comma. -/
theorem notMem_printOperand (hex : Bool) (x : AsmOperand) : ' ' ∉ printOperand hex x ∧ ',' ∉ printOperand hex x := by
  cases x with
  | resultY => simp [printOperand]
  | value n =>
    cases hex with
    | true =>
      have h1 : ' ' ∉ Nat.toDigits 16 n := notMem_toDigits (by decide) (by decide)
      have h2 : ',' ∉ Nat.toDigits 16 n := notMem_toDigits (by decide) (by decide)
      simp [printOperand, h1, h2]
    | false => exact ⟨notMem_toDigits (by decide) (by decide), notMem_toDigits (by decide) (by decide)⟩

/-- An operand reads back, with or without the printer's blank in front. -/
theorem parseOperand_blank (hex : Bool) (x : AsmOperand) : parseOperand (' ' :: printOperand hex x) = some x := by
  unfold parseOperand
  rw [trimBlanks_cons (notMem_printOperand hex x).1]
  cases x with
  | resultY => simp [printOperand]
  | value n =>
    cases hex with
    | true => simp [printOperand, parseNumeral_hex]
    | false =>
      have hY : 'Y' ∉ Nat.toDigits 10 n := notMem_toDigits (by decide) (by decide)
      have hne : Nat.toDigits 10 n ≠ ['Y'] := fun e => hY (by simp [e])
      simp [printOperand, parseNumeral_decimal, hne]

/-- The operands of a line read back. -/
theorem mapM_printOperands (hex : Bool) (x : AsmOperand) (xs : List AsmOperand) :
    (splitAtChar ',' (printOperands hex (x :: xs))).mapM parseOperand = some (x :: xs) := by
  induction xs generalizing x with
  | nil =>
    have h : ',' ∉ ' ' :: printOperand hex x := by simp [(notMem_printOperand hex x).2]
    simp [printOperands, splitAtChar_of_notMem h, parseOperand_blank]
  | cons y ys ih =>
    have h : ',' ∉ ' ' :: printOperand hex x := by simp [(notMem_printOperand hex x).2]
    rw [printOperands, splitAtChar_append h, List.mapM_cons, parseOperand_blank, ih y]
    rfl

/-- Text that trims to nothing is blank. -/
theorem eq_blank_of_trimBlanks_eq_nil {cs : List Char} (h : trimBlanks cs = []) {c : Char} (hc : c ∈ cs) : c = ' ' := by
  unfold trimBlanks at h
  have hd := List.dropWhile_eq_nil_iff.1 (List.reverse_eq_nil_iff.1 h)
  rw [← List.takeWhile_append_dropWhile (p := (· == ' ')) (l := cs), List.mem_append] at hc
  rcases hc with hc | hc
  · simpa using List.mem_takeWhile_imp hc
  · simpa using hd c (List.mem_reverse.2 hc)

theorem printOperand_ne_nil (hex : Bool) (x : AsmOperand) : printOperand hex x ≠ [] := by
  cases x with
  | resultY => simp [printOperand]
  | value n =>
    cases hex with
    | true => simp [printOperand]
    | false =>
      simp only [printOperand, Bool.false_eq_true, if_false]
      rw [Nat.toDigits_eq_if (by decide)]
      split <;> simp

/-- Printed operands are nothing, or begin with a blank and end without one. -/
theorem printOperands_ends (hex : Bool) (x : AsmOperand) (xs : List AsmOperand) :
    ∃ cs, printOperands hex (x :: xs) = ' ' :: cs ∧ ∃ c, (' ' :: cs).getLast? = some c ∧ c ≠ ' ' := by
  induction xs generalizing x with
  | nil =>
    obtain ⟨c, hc⟩ := Option.ne_none_iff_exists'.1 (mt List.getLast?_eq_none_iff.1 (printOperand_ne_nil hex x))
    refine ⟨printOperand hex x, rfl, c, by simp [List.getLast?_cons, hc], ?_⟩
    rintro rfl
    exact (notMem_printOperand hex x).1 (List.mem_of_getLast? hc)
  | cons y ys ih =>
    obtain ⟨cs, hcs, c, hc, hne⟩ := ih y
    refine ⟨printOperand hex x ++ ',' :: ' ' :: cs, by rw [printOperands, hcs]; rfl, c, ?_, hne⟩
    rw [← List.cons_append, List.getLast?_append, List.getLast?_cons, hc]
    rfl

theorem parseOperands_printOperands (hex : Bool) (xs : List AsmOperand) :
    parseOperands (printOperands hex xs) = some xs := by
  cases xs with
  | nil => rfl
  | cons x xs =>
    obtain ⟨cs, hcs, c, hc, hne⟩ := printOperands_ends hex x xs
    have h : trimBlanks (printOperands hex (x :: xs)) ≠ [] := fun e =>
      hne (eq_blank_of_trimBlanks_eq_nil e (by rw [hcs]; exact List.mem_of_getLast? hc))
    rw [parseOperands, if_neg h, mapM_printOperands]

@[simp] theorem parseWidth_widthName (w : Width) : parseWidth (widthName w) = some w := by cases w <;> decide
@[simp] theorem opOfName_opName (o : Op) : opOfName (opName o) = some o := by cases o <;> decide

/-- What the reader makes of a printed line: its name, width and operands, as they were. -/
theorem parseText_printWith (hex : Bool) {name : List Char} (w : Width) (xs : List AsmOperand) (hb : ' ' ∉ name)
    (hd : '.' ∉ name) (hne : name ≠ []) (hu : name.map Char.toUpper = name) :
    parseText (printWith hex name w xs) =
      match opOfName name with
      | some o => commandText o w xs
      | none => pseudoText name w xs := by
  have hw : ' ' ∉ widthName w ∧ (widthName w).getLast? ≠ some ' ' ∧ widthName w ≠ [] := by cases w <;> decide
  have hhead : ∀ c ∈ name ++ '.' :: widthName w, (c != ' ') = true := by
    intro c hc
    rw [bne_iff_ne]
    rintro rfl
    simp [hb, hw.1] at hc
  have hname : ∀ c ∈ name, (c != '.') = true := by
    intro c hc
    rw [bne_iff_ne]
    rintro rfl
    exact hd hc
  have hxs : printOperands hex xs = [] ∨
      ∃ cs, printOperands hex xs = ' ' :: cs ∧ ∃ c, (' ' :: cs).getLast? = some c ∧ c ≠ ' ' := by
    cases xs with
    | nil => exact .inl rfl
    | cons x xs => exact .inr (printOperands_ends hex x xs)
  have htrim : trimBlanks (printWith hex name w xs) = printWith hex name w xs := by
    refine trimBlanks_of_ends ?_ ?_
    · obtain ⟨c, cs, rfl⟩ := List.exists_cons_of_ne_nil hne
      intro e
      simp only [printWith, List.cons_append, List.head?_cons, Option.some.injEq] at e
      simp [e] at hb
    · rcases hxs with h | ⟨cs, h, c, hc, hcne⟩
      · cases w <;> simp [printWith, h, widthName]
      · rw [printWith, h, List.getLast?_append, hc]
        simpa using hcne
  have htake : (printWith hex name w xs).takeWhile (· != ' ') = name ++ '.' :: widthName w := by
    rw [printWith, List.takeWhile_append_of_pos hhead]
    rcases hxs with h | ⟨cs, h, -⟩ <;> simp [h]
  have hdrop : (printWith hex name w xs).dropWhile (· != ' ') = printOperands hex xs := by
    rw [printWith, List.dropWhile_append_of_pos hhead]
    rcases hxs with h | ⟨cs, h, -⟩ <;> simp [h]
  have hl : (name ++ '.' :: widthName w).takeWhile (· != '.') = name := by
    rw [List.takeWhile_append_of_pos hname]
    simp
  have hr : ((name ++ '.' :: widthName w).dropWhile (· != '.')).drop 1 = widthName w := by
    rw [List.dropWhile_append_of_pos hname]
    simp
  simp only [parseText, htrim, htake, hdrop, hl, hr, hu, parseWidth_widthName, parseOperands_printOperands]
  rfl

theorem fits_iff (w : Width) (x : AsmOperand) : x.fits w = true ↔ ∀ n, x = .value n → n < 2 ^ w.bits := by
  cases x <;> simp [AsmOperand.fits]

/-- The check of a command line, spelled out (R55, R56). -/
theorem asmLine_wellFormed_iff (l : AsmLine) :
    l.wellFormed = true ↔ (∀ n, l.a = .value n → n < 2 ^ l.instr.width.bits) ∧
      (∀ n, l.b = .value n → n < 2 ^ l.instr.width.bits) ∧ (l.instr.op.isUnary = true → l.b = .value 0) := by
  rw [AsmLine.wellFormed, Bool.and_eq_true, Bool.and_eq_true, fits_iff, fits_iff, and_assoc]
  cases l.instr.op.isUnary <;> simp

end Sys2Proof.Machine
end

