-- ==== Sys2Proof/Tests/Slice0.lean ====
section
/-! SUPPORT. The model's own tests. Every expected value comes from spec/: the vectors of 95_test_vectors.md, or the tables
of the rule a comment names. After them, one witness for each statement that has hypotheses. -/

namespace Sys2Proof.Tests

open Sys2Proof Sys2Proof.Machine

/-! ### The encoding, bit by bit from 30_encoding.md R44 to R47 -/

/-- `OP = 0000`, `WS = 1`, `RSVD = 000`. -/
theorem test_decode_add128 : decode 0b00010000#8 = .ok .add128 := by decide

/-- `OP = 0010`, `WS = 1`. -/
theorem test_decode_shl128 : decode 0b00010010#8 = .ok .shl128 := by decide

/-- `OP = 0100`, `WS = 0`. -/
theorem test_decode_cmp32 : decode 0b00000100#8 = .ok .cmp32 := by decide

/-- `OP = 0110`, `WS = 0`. -/
theorem test_decode_or32 : decode 0b00000110#8 = .ok .or32 := by decide

/-- `OP = 1001`, `WS = 0`. -/
theorem test_decode_clz32 : decode 0b00001001#8 = .ok .clz32 := by decide

/-- R50, R51: V98 to V101 and V104 of 95_test_vectors.md are illegal words. -/
theorem test_decode_illegal :
    decode 0x0A#8 = .error .reservedOp ∧ decode 0x1F#8 = .error .reservedOp ∧
      decode 0x20#8 = .error .reservedBits ∧ decode 0xF4#8 = .error .reservedBits ∧
      decode 0xFF#8 = .error .reservedBits := by decide

/-- The table's word of SHR.128 is 0x13. -/
theorem test_decodeTableWord_shr128 : decodeTableWord 8 0x13 = some .shr128 := by decide

/-! ### Ill-formed text, one term for each check of WellFormed -/

/-- R56: a value of `2^32` does not fit `W = 32`. -/
theorem test_illFormed_operand_a :
    (AsmLine.mk .add32 (.value 4294967296) (.value 1)).wellFormed = false := by decide

/-- R56. -/
theorem test_illFormed_operand_b :
    (AsmLine.mk .add32 (.value 1) (.value 4294967296)).wellFormed = false := by decide

/-- R55: a unary command's `b` is assembled as `0`. -/
theorem test_illFormed_unary_b : (AsmLine.mk .not32 (.value 1) (.value 1)).wellFormed = false := by decide

/-- R56 for each pseudo-instruction's operand, and R57's bound on `p`. -/
theorem test_illFormed_pseudo :
    (Pseudo.mov .w32 (.value 4294967296)).wellFormed = false ∧
      (Pseudo.inc .w32 (.value 4294967296)).wellFormed = false ∧
      (Pseudo.dec .w32 (.value 4294967296)).wellFormed = false ∧
      (Pseudo.neg .w32 (.value 4294967296)).wellFormed = false ∧
      (Pseudo.tst .w32 (.value 4294967296)).wellFormed = false ∧
      (Pseudo.pow2 .w32 (.value 4294967296)).wellFormed = false ∧
      (Pseudo.bitlen .w32 (.value 4294967296)).wellFormed = false ∧
      (Pseudo.mask .w128 129).wellFormed = false := by decide

/-- The same values fit where the rule says so. -/
theorem test_wellFormed_text :
    (AsmText.command (AsmLine.mk .add128 (.value 4294967296) .resultY)).wellFormed = true ∧
      (AsmText.pseudo (.mask .w128 128)).wellFormed = true ∧ (AsmText.pseudo (.clr .w32)).wellFormed = true := by decide

/-! ### One step of each command from reset, `LATENCY = 1` (95_test_vectors.md section 2) -/

/-- The step from reset with this command offered leaves these values on the outputs, with `ERR = 0`. -/
def ranFromReset (cmd : Byte) (a b y : Word) (c z : Bool) (ord : OrdCode) : Bool :=
  match step { State.reset with inputs := [offerInput cmd a b] } with
  | .next t => visible t == { y := y, c := c, z := z, ord := ord, err := false }
  | .fault _ => false
  | .refused _ => false

/-- V6 of 95_test_vectors.md. -/
theorem test_add32_wraps :
    ranFromReset 0x0#8 0xffffffff#128 0x1#128 0x0#128 true true .none = true := by decide

/-- V9 of 95_test_vectors.md. -/
theorem test_add32_ignores_upper_bits :
    ranFromReset 0x0#8 0x500000001#128 0x70000000002#128 0x3#128 false false .none = true := by decide

/-- V3 of 95_test_vectors.md. -/
theorem test_add128_carries_across_halves :
    ranFromReset 0x10#8 0xffffffffffffffff#128 0x1#128 0x10000000000000000#128 false false .none = true := by decide

/-- V2 of 95_test_vectors.md. -/
theorem test_add128_wraps :
    ranFromReset 0x10#8 0xffffffffffffffffffffffffffffffff#128 0xffffffffffffffffffffffffffffffff#128 0xfffffffffffffffffffffffffffffffe#128 true false .none = true := by decide

/-- V16 of 95_test_vectors.md. -/
theorem test_sub32_wraps :
    ranFromReset 0x1#8 0x0#128 0x1#128 0xffffffff#128 true false .none = true := by decide

/-- V19 of 95_test_vectors.md. -/
theorem test_sub32_ignores_upper_bits :
    ranFromReset 0x1#8 0x100000000#128 0x1#128 0xffffffff#128 true false .none = true := by decide

/-- V12 of 95_test_vectors.md. -/
theorem test_sub128_borrows_across_halves :
    ranFromReset 0x11#8 0x10000000000000000#128 0x1#128 0xffffffffffffffff#128 false false .none = true := by decide

/-- V13 of 95_test_vectors.md. -/
theorem test_sub128_wraps :
    ranFromReset 0x11#8 0x1#128 0xffffffffffffffffffffffffffffffff#128 0x2#128 true false .none = true := by decide

/-- V34 of 95_test_vectors.md. -/
theorem test_shl32_reads_amount_at_width :
    ranFromReset 0x2#8 0x1#128 0x100000003#128 0x8#128 false false .none = true := by decide

/-- V32 of 95_test_vectors.md. -/
theorem test_shl32_clears_from_width :
    ranFromReset 0x2#8 0x1#128 0xffffffff#128 0x0#128 false true .none = true := by decide

/-- V27 of 95_test_vectors.md. -/
theorem test_shl128_crosses_halves :
    ranFromReset 0x12#8 0xabcd#128 0x44#128 0xabcd00000000000000000#128 false false .none = true := by decide

/-- V25 of 95_test_vectors.md. -/
theorem test_shl128_does_not_truncate_amount :
    ranFromReset 0x12#8 0x1#128 0x10000000000000000#128 0x0#128 false true .none = true := by decide

/-- V46 of 95_test_vectors.md. -/
theorem test_shr32_ignores_upper_bits :
    ranFromReset 0x3#8 0x10000000010#128 0x4#128 0x1#128 false false .none = true := by decide

/-- V44 of 95_test_vectors.md. -/
theorem test_shr32_clears_from_width :
    ranFromReset 0x3#8 0xffffffff#128 0x20#128 0x0#128 false true .none = true := by decide

/-- V41 of 95_test_vectors.md. -/
theorem test_shr128_merges_across_halves :
    ranFromReset 0x13#8 0x10000000000000000#128 0x1#128 0x8000000000000000#128 false false .none = true := by decide

/-- V42 of 95_test_vectors.md. -/
theorem test_shr128_does_not_truncate_amount :
    ranFromReset 0x13#8 0xffffffffffffffffffffffffffffffff#128 0x10000000000000000000000000#128 0x0#128 false true .none = true := by decide

/-- V55 of 95_test_vectors.md. -/
theorem test_cmp32_ignores_upper_bits :
    ranFromReset 0x4#8 0x100000005#128 0x5#128 0x0#128 false true .eq = true := by decide

/-- V52 of 95_test_vectors.md. -/
theorem test_cmp32_is_unsigned :
    ranFromReset 0x4#8 0x0#128 0xffffffff#128 0x2#128 true false .lt = true := by decide

/-- V48 of 95_test_vectors.md. -/
theorem test_cmp128_is_high_half_major :
    ranFromReset 0x14#8 0x10000000000000000#128 0xffffffffffffffff#128 0x1#128 false false .gt = true := by decide

/-- V51 of 95_test_vectors.md. -/
theorem test_cmp128_is_unsigned :
    ranFromReset 0x14#8 0x80000000000000000000000000000000#128 0x7fffffffffffffffffffffffffffffff#128 0x1#128 false false .gt = true := by decide

/-- V56 of 95_test_vectors.md. -/
theorem test_and32_masks :
    ranFromReset 0x5#8 0xc0000282#128 0xffffff80#128 0xc0000280#128 false false .none = true := by decide

/-- V57 of 95_test_vectors.md. -/
theorem test_and32_sets_zero :
    ranFromReset 0x5#8 0xff00ff00#128 0xff00ff#128 0x0#128 false true .none = true := by decide

/-- V58 of 95_test_vectors.md. -/
theorem test_and128_keeps_high_half :
    ranFromReset 0x15#8 0xffffffffffffffffffffffffffffffff#128 0x10000000000000000#128 0x10000000000000000#128 false false .none = true := by decide

/-- V59 of 95_test_vectors.md. -/
theorem test_and128_sets_zero :
    ranFromReset 0x15#8 0x0#128 0xffffffffffffffffffffffffffffffff#128 0x0#128 false true .none = true := by decide

/-- V60 of 95_test_vectors.md. -/
theorem test_or32_joins :
    ranFromReset 0x6#8 0xc0000200#128 0x7f#128 0xc000027f#128 false false .none = true := by decide

/-- V61 of 95_test_vectors.md. -/
theorem test_or128_joins_halves :
    ranFromReset 0x16#8 0x80000000000000000000000000000000#128 0x1#128 0x80000000000000000000000000000001#128 false false .none = true := by decide

/-- V63 of 95_test_vectors.md. -/
theorem test_or128_fills :
    ranFromReset 0x16#8 0xffffffffffffffff0000000000000000#128 0xffffffffffffffff#128 0xffffffffffffffffffffffffffffffff#128 false false .none = true := by decide

/-- V67 of 95_test_vectors.md. -/
theorem test_not32_complements_32_bits :
    ranFromReset 0x7#8 0xab000000ff#128 0x0#128 0xffffff00#128 false false .none = true := by decide

/-- V66 of 95_test_vectors.md. -/
theorem test_not32_sets_zero :
    ranFromReset 0x7#8 0xffffffff#128 0x0#128 0x0#128 false true .none = true := by decide

/-- V68 of 95_test_vectors.md. -/
theorem test_not128_complements :
    ranFromReset 0x17#8 0xffffffffffffffff#128 0x0#128 0xffffffffffffffff0000000000000000#128 false false .none = true := by decide

/-- V71 of 95_test_vectors.md. -/
theorem test_not128_ignores_b :
    ranFromReset 0x17#8 0x1234#128 0xffffffffffffffffffffffffffffffff#128 0xffffffffffffffffffffffffffffedcb#128 false false .none = true := by decide

/-- V79 of 95_test_vectors.md. -/
theorem test_ctz32_counts :
    ranFromReset 0x8#8 0xc0000200#128 0x0#128 0x9#128 false false .none = true := by decide

/-- V82 of 95_test_vectors.md. -/
theorem test_ctz32_of_zero_at_width :
    ranFromReset 0x8#8 0x100000000#128 0x0#128 0x20#128 false false .none = true := by decide

/-- V75 of 95_test_vectors.md. -/
theorem test_ctz128_crosses_halves :
    ranFromReset 0x18#8 0x10000000000000000#128 0x0#128 0x40#128 false false .none = true := by decide

set_option maxRecDepth 4000 in
set_option maxRecDepth 4000 in
/-- V72 of 95_test_vectors.md. -/
theorem test_ctz128_of_zero :
    ranFromReset 0x18#8 0x0#128 0x0#128 0x80#128 false false .none = true := by decide

/-- V91 of 95_test_vectors.md. -/
theorem test_clz32_counts :
    ranFromReset 0x9#8 0x83#128 0x0#128 0x18#128 false false .none = true := by decide

/-- V95 of 95_test_vectors.md. -/
theorem test_clz32_of_zero_at_width :
    ranFromReset 0x9#8 0x200000000#128 0x0#128 0x20#128 false false .none = true := by decide

/-- V87 of 95_test_vectors.md. -/
theorem test_clz128_counts :
    ranFromReset 0x19#8 0x10000000000000000#128 0x0#128 0x3f#128 false false .none = true := by decide

/-- V86 of 95_test_vectors.md. -/
theorem test_clz128_crosses_halves :
    ranFromReset 0x19#8 0xffffffffffffffff#128 0x0#128 0x40#128 false false .none = true := by decide

/-! ### The exception, reset and the handshake -/

/-- A state of `LATENCY = 3` that shows `5`, with the host's drive. -/
def showing5 (inputs : List EdgeInput) : State :=
  { State.reset with y := 5, z := false, latencyMinusOne := 2, inputs := inputs }

/-- `SUB.32 9, 2` in flight with `k` edges to come, as in T1. -/
def subInFlight (k : Nat) (inputs : List EdgeInput) : State :=
  { showing5 inputs with busy := true, remaining := k, latch := { cmd := 0x01#8, a := 9, b := 2 } }

/-- What the outputs show after one step, and `BUSY`. -/
def stepShows (s : State) (busy : Bool) (v : Visible) : Bool :=
  match step s with
  | .next t => visible t == v && t.busy == busy
  | .fault _ => false
  | .refused _ => false

/-- V98: after `Y = 5`, an illegal word changes `ERR` alone. -/
theorem test_illegal_sets_err :
    stepShows { showing5 [offerInput 0x0A#8 1 1] with latencyMinusOne := 0 } false
      { y := 5, c := false, z := false, ord := .none, err := true } = true := by decide

/-- V102: legal commands still work and `ERR` is sticky. -/
theorem test_err_is_sticky :
    stepShows { showing5 [offerInput 0x14#8 1 2] with latencyMinusOne := 0, err := true } false
      { y := 2, c := true, z := false, ord := .lt, err := true } = true := by decide

/-- V103: reset is the only way to clear `ERR`. -/
theorem test_reset_clears_err :
    stepShows { showing5 [resetInput] with err := true } false
      { y := 0, c := false, z := true, ord := .none, err := false } = true := by decide

/-- T1, edge e4: acceptance; the outputs hold and `BUSY` rises. -/
theorem test_T1_acceptance :
    stepShows (showing5 [offerInput 0x01#8 9 2]) true
      { y := 5, c := false, z := false, ord := .none, err := false } = true := by decide

/-- T1, edge e5 (and e2): in flight, an offer has no effect. -/
theorem test_T1_wait :
    stepShows (subInFlight 2 [offerInput 0x00#8 1 1]) true
      { y := 5, c := false, z := false, ord := .none, err := false } = true := by decide

/-- T1, edge e6: completion of SUB. -/
theorem test_T1_completion :
    stepShows (subInFlight 1 []) false
      { y := 7, c := false, z := false, ord := .none, err := false } = true := by decide

/-- T1, edge e8: reset discards the command in flight. -/
theorem test_T1_reset_in_flight :
    stepShows (subInFlight 1 [resetInput]) false
      { y := 0, c := false, z := true, ord := .none, err := false } = true := by decide

/-- R92. -/
theorem test_second_agent_is_refused :
    (match step (showing5 [{ idleInput with secondAgent := true }]) with
      | .refused r => decide (r = .secondAgent)
      | .next _ => false
      | .fault _ => false) = true := by decide

/-- The word 0x10 placed after reset runs as ADD.128 of the values on the ports. -/
theorem test_withFetchWord_runs :
    stepShows (State.withFetchWord { State.reset with inputs := [offerInput 0xFF#8 3 4] } 8 0x10) false
      { y := 7, c := false, z := false, ord := .none, err := false } = true := by decide

/-! ### Bytes and text -/

/-- E7: the 16-byte buffer of 95_test_vectors.md. -/
theorem test_bytes16 :
    portOfBytes [0x20, 0x01, 0x0D, 0xB8, 0, 0, 0, 0, 0, 0, 0, 0, 0, 0, 0, 1] =
      0x20010DB8000000000000000000000001#128 := by decide

/-- E7: `[192, 0, 2, 130]` maps to `0xC0000282` and back. -/
theorem test_bytes4 : portOfBytes [192, 0, 2, 130] = 0xC0000282#128 ∧ beBytes 4 0xC0000282 = [192, 0, 2, 130] := by
  decide

/-- R55, R56: case-insensitive mnemonic, hexadecimal digits grouped by `_`. -/
theorem test_parse_command :
    parseLine ['a', 'd', 'D', '.', '3', '2', ' ', '0', 'x', 'F', 'F', '_', '0', '0', ',', ' ', '1', '_', '0'] =
      some (.command (AsmLine.mk .add32 (.value 0xFF00) (.value 10))) := by decide

/-- R55: the width suffix is mandatory. -/
theorem test_parse_needs_suffix : parseLine ['N', 'O', 'T', ' ', '1'] = none := by decide

/-- R57. -/
theorem test_parse_mask : parseLine ['M', 'A', 'S', 'K', '.', '3', '2', ' ', '2', '4'] = some (.pseudo (.mask .w32 24)) := by
  decide

/-- P1, step 1: the amount of `MASK.32 24` is 8; R84: a host that forms `W - p` for `p = 33` gets the wrapped amount. -/
theorem test_maskAmount : maskAmount .w32 24 = 8 ∧ maskAmount .w32 33 = 0xFFFFFFFF := by decide

/-! ### Witnesses: states and operands that meet the hypotheses of each statement, clause by clause -/

/-- A state after reset with this command in the latch. -/
def withLatch (cmd : Byte) (a b : Word) : State := { State.reset with latch := { cmd := cmd, a := a, b := b } }

/-- A state after reset with this drive. -/
def driven (inputs : List EdgeInput) : State := { State.reset with inputs := inputs }

theorem witness_DecodeOfEncode : Instr.wellFormed .add32 = true ∧ Instr.wellFormed .clz128 = true := by decide

/-- Both sides of the disjunction, each at both ends of its range. -/
theorem witness_IllegalWordSetsErrOnly :
    fieldRsvd (withLatch 0x20#8 1 1).latch.cmd ≠ 0#3 ∧ fieldRsvd (withLatch 0xF4#8 1 1).latch.cmd ≠ 0#3 ∧
      10 ≤ (fieldOp (withLatch 0x0A#8 1 1).latch.cmd).toNat ∧ 10 ≤ (fieldOp (withLatch 0x1F#8 1 1).latch.cmd).toNat := by
  decide

/-- The amounts on the two sides of `W`, at both widths; bits above `W = 32` do not count. -/
theorem witness_ShlShiftsOrClears :
    (withLatch 0x02#8 1 0x10000001F#128).latch.b.toNat % 2 ^ 32 < 32 ∧
      32 ≤ (withLatch 0x02#8 1 32).latch.b.toNat % 2 ^ 32 ∧ (withLatch 0x12#8 1 127).latch.b.toNat < 128 ∧
      128 ≤ (withLatch 0x12#8 1 128).latch.b.toNat := by decide

theorem witness_ShrShiftsOrClears :
    (withLatch 0x03#8 1 31).latch.b.toNat % 2 ^ 32 < 32 ∧ 32 ≤ (withLatch 0x03#8 1 0xFFFFFFFF#128).latch.b.toNat % 2 ^ 32 ∧
      (withLatch 0x13#8 1 127).latch.b.toNat < 128 ∧ 128 ≤ (withLatch 0x13#8 1 128).latch.b.toNat := by decide

/-- Each of the three cases, at both widths, with operands one apart. -/
theorem witness_CmpReportsTheOrder :
    (withLatch 0x04#8 0x100000005#128 5).latch.a.toNat % 2 ^ 32 = (withLatch 0x04#8 0x100000005#128 5).latch.b.toNat % 2 ^ 32 ∧
      (withLatch 0x04#8 6 5).latch.b.toNat % 2 ^ 32 < (withLatch 0x04#8 6 5).latch.a.toNat % 2 ^ 32 ∧
      (withLatch 0x04#8 5 6).latch.a.toNat % 2 ^ 32 < (withLatch 0x04#8 5 6).latch.b.toNat % 2 ^ 32 ∧
      (withLatch 0x14#8 5 5).latch.a = (withLatch 0x14#8 5 5).latch.b ∧
      (withLatch 0x14#8 6 5).latch.b.toNat < (withLatch 0x14#8 6 5).latch.a.toNat ∧
      (withLatch 0x14#8 5 6).latch.a.toNat < (withLatch 0x14#8 5 6).latch.b.toNat := by decide

/-- Bit 31 is the last bit at `W = 32`, bit 32 the first above it, and bit 127 the last of the port. -/
theorem witness_bitwise_statements : (31 < 32) ∧ (32 ≤ 32) ∧ (127 < 128) := by decide

/-- Zero and not zero at both widths; `2^32` is zero at `W = 32`; a divisor `2^k` at its greatest `k`. -/
theorem witness_CtzFindsTheLowestOne :
    (withLatch 0x08#8 0x100000000#128 0).latch.a.toNat % 2 ^ 32 = 0 ∧
      (withLatch 0x08#8 0x80000000#128 0).latch.a.toNat % 2 ^ 32 ≠ 0 ∧
      2 ^ 31 ∣ (withLatch 0x08#8 0x80000000#128 0).latch.a.toNat % 2 ^ 32 ∧ (withLatch 0x18#8 0 0).latch.a = 0 ∧
      (withLatch 0x18#8 0x80000000000000000000000000000000#128 0).latch.a ≠ 0 ∧
      2 ^ 127 ∣ (withLatch 0x18#8 0x80000000000000000000000000000000#128 0).latch.a.toNat := by decide

theorem witness_ClzCountsAboveTheTopOne :
    (withLatch 0x09#8 0xFFFFFFFF#128 0).latch.a.toNat % 2 ^ 32 < 2 ^ 32 ∧
      (withLatch 0x19#8 0x8000#128 0).latch.a.toNat < 2 ^ 16 := by decide

/-- The least and the greatest operands of each width; the laws with a third operand take the greatest too. -/
theorem witness_AddSubLaws :
    (∀ w : Width, 0 < 2 ^ w.bits) ∧ 4294967295 < 2 ^ Width.w32.bits ∧
      0xFFFFFFFFFFFFFFFFFFFFFFFFFFFFFFFF < 2 ^ Width.w128.bits :=
  ⟨fun w => by cases w <;> decide, by decide, by decide⟩

/-- An amount below `W`, the amount `W` and an amount above it; `MASK`'s `p` at both ends of its range. -/
theorem witness_ShiftLaws :
    31 < 2 ^ Width.w32.bits ∧ 31 < Width.w32.bits ∧ 32 < 2 ^ Width.w32.bits ∧ ¬ 32 < Width.w32.bits ∧
      127 < 2 ^ Width.w128.bits ∧ 127 < Width.w128.bits ∧ 128 < 2 ^ Width.w128.bits ∧ 0 ≤ Width.w32.bits ∧
      32 ≤ Width.w32.bits ∧ 128 ≤ Width.w128.bits := by decide

/-- `a < b < c`, so that the law of transitivity has both its premises. -/
theorem witness_CompareLaws :
    5 < 2 ^ Width.w32.bits ∧ 6 < 2 ^ Width.w32.bits ∧ 7 < 2 ^ Width.w32.bits ∧
      compareOrd 5 6 = .lt ∧ compareOrd 6 7 = .lt := by decide

/-- `x = 0` and `x` not 0; `k` and `p` at both ends; a netmask `x` of `p = 24` ones. -/
theorem witness_CountLaws :
    0 < 2 ^ Width.w32.bits ∧ 0xFFFFFF00 < 2 ^ Width.w32.bits ∧ (0xFFFFFF00 : Nat) ≠ 0 ∧ 32 ≤ Width.w32.bits ∧
      24 ≤ Width.w32.bits ∧ 0xFFFFFF00 = 2 ^ Width.w32.bits - 2 ^ (Width.w32.bits - 24) ∧ 0xFFFFFF00 < 2 ^ 32 := by decide

/-- Both widths, and an illegal word of each kind for the clauses about them. -/
theorem witness_ResultRegisterRule :
    Instr.width .not32 = .w32 ∧ decode (withLatch 0x0A#8 1 1).latch.cmd = .error .reservedOp ∧
      decode (withLatch 0x34#8 1 1).latch.cmd = .error .reservedBits := by decide

/-- Each class of operations. -/
theorem witness_CarryFlagRule :
    Instr.op .add32 = .add ∧ Instr.op .sub128 = .sub ∧ Instr.op .cmp32 = .cmp ∧ Instr.op .shl128 ≠ .add ∧
      Instr.op .shl128 ≠ .sub ∧ Instr.op .shl128 ≠ .cmp := by decide

theorem witness_ZeroFlagRule : decode (withLatch 0x1F#8 1 1).latch.cmd = .error .reservedOp := by decide

theorem witness_OrdFieldRule :
    Instr.op .cmp128 = .cmp ∧ Instr.op .add32 ≠ .cmp ∧ decode (withLatch 0xFF#8 1 1).latch.cmd = .error .reservedBits := by
  decide

/-- An illegal word; and a step that clears `ERR`. -/
theorem witness_ErrFlagRule :
    decode (withLatch 0x0A#8 1 1).latch.cmd = .error .reservedOp ∧
      ∃ t, step { driven [resetInput] with err := true } = .next t ∧ t.err = false := ⟨by decide, _, rfl, rfl⟩

/-- Operands that differ above bit 31 only. -/
theorem witness_NarrowCommandsIgnoreUpperBits :
    Instr.width .add32 = .w32 ∧ decode 0x00#8 = .ok .add32 ∧
      (0x500000001#128).extractLsb' 0 32 = (0x1#128).extractLsb' 0 32 ∧
      (0x70000000002#128).extractLsb' 0 32 = (0x2#128).extractLsb' 0 32 := by decide

theorem witness_UnaryCommandsIgnoreB :
    (Instr.op .not128).isUnary = true ∧ decode 0x17#8 = .ok .not128 ∧ (Instr.op .ctz32).isUnary = true ∧
      decode 0x08#8 = .ok .ctz32 ∧ (Instr.op .clz32).isUnary = true ∧ decode 0x09#8 = .ok .clz32 := by decide

/-- An edge with reset, a valid offer at it; and an edge without reset after which `ERR` is still to be told. -/
theorem witness_ResetEdgeTakesTheResetValues :
    (portSample (driven [{ offerInput 0x00#8 1 2 with rst := true }])).rst = true ∧
      (portSample (driven [{ offerInput 0x00#8 1 2 with rst := true }])).secondAgent = false ∧
      ∃ t, (portSample { driven [offerInput 0x00#8 1 2] with err := true }).rst = false ∧
        step { driven [offerInput 0x00#8 1 2] with err := true } = .next t := ⟨rfl, rfl, _, rfl, rfl⟩

/-- A reset at the completion edge, then three idle edges. -/
theorem witness_ResetDiscardsTheFlight :
    (subInFlight 1 (resetInput :: (List.replicate 3 idleInput ++ []))).busy = true ∧ resetInput.rst = true ∧
      resetInput.secondAgent = false := by decide

/-- An offer accepted at `LATENCY = 3`; no acceptance with a command in flight, and none without an offer. -/
theorem witness_AcceptanceLatchesThePorts :
    (showing5 [offerInput 0x01#8 9 2]).busy = false ∧ Quiet (portSample (showing5 [offerInput 0x01#8 9 2])) ∧
      (portSample (showing5 [offerInput 0x01#8 9 2])).cmdValid = true ∧
      2 ≤ (showing5 [offerInput 0x01#8 9 2]).latency ∧ (subInFlight 2 [offerInput 0x00#8 1 1]).busy = true ∧
      Quiet (portSample (subInFlight 2 [offerInput 0x00#8 1 1])) ∧ (portSample (showing5 [])).cmdValid = false ∧
      Quiet (portSample (showing5 [])) := by decide

theorem witness_PortsAreIgnoredOutsideAcceptance :
    (subInFlight 2 []).resetSeen = true ∧ (subInFlight 2 []).busy = true ∧ Quiet (offerInput 0x00#8 1 1) ∧
      Quiet (offerInput 0xFF#8 7 8) ∧ Quiet { idleInput with a := 5 } ∧
      ({ idleInput with a := 5 } : EdgeInput).cmdValid = false ∧ Quiet idleInput ∧ idleInput.cmdValid = false ∧
      resetInput.rst = true ∧ ({ offerInput 0x00#8 1 1 with rst := true } : EdgeInput).rst = true ∧
      resetInput.secondAgent = false ∧ (offerInput 0x00#8 1 1).secondAgent = false := by decide

/-- `LATENCY = 1` (no edge between) and `LATENCY = 3`, the host offering other commands meanwhile. -/
theorem witness_CommandCompletesAfterLatency :
    (driven [offerInput 0x00#8 3 4]).inputs = offerInput 0x00#8 3 4 :: ([] ++ []) ∧
      ([] : List EdgeInput).length = (driven [offerInput 0x00#8 3 4]).latencyMinusOne ∧
      (showing5 [offerInput 0x01#8 9 2, offerInput 0x00#8 1 1, idleInput]).inputs =
        offerInput 0x01#8 9 2 :: ([offerInput 0x00#8 1 1, idleInput] ++ []) ∧
      [offerInput 0x00#8 1 1, idleInput].length =
        (showing5 [offerInput 0x01#8 9 2, offerInput 0x00#8 1 1, idleInput]).latencyMinusOne ∧
      (∀ p ∈ [offerInput 0x00#8 1 1, idleInput], Quiet p) ∧
      2 < (showing5 [offerInput 0x01#8 9 2, offerInput 0x00#8 1 1, idleInput]).latency := by decide

/-- The invariant with nothing in flight (a reset state is another). -/
theorem witness_inv_ready : Inv (showing5 [offerInput 0x01#8 9 2]) := by
  refine ⟨rfl, ⟨by decide, fun h => absurd rfl h⟩, fun h => ?_, fun _ => rfl⟩
  cases h

/-- The invariant with a command in flight, at the greatest count of edges to come. -/
theorem witness_BusyEndsWithinLatency :
    Inv (subInFlight 2 []) ∧ (subInFlight 2 []).busy = true ∧
      ∀ p ∈ (subInFlight 2 []).inputs.take (subInFlight 2 []).remaining, Quiet p := by
  refine ⟨⟨rfl, ⟨by decide, fun h => absurd rfl h⟩, fun _ => by decide, fun h => ?_⟩, by decide, by decide⟩
  cases h

/-- Two edges: the last wait and the completion. -/
theorem witness_EdgesRefineTheCommandModel :
    ∃ t, (subInFlight 2 []).resetSeen = true ∧ Host.Core.run Sys2Proof.core 2 (subInFlight 2 []) = .next t ∧
      completedSteps 2 (subInFlight 2 []) = [.command { cmd := 0x01#8, a := 9, b := 2 }] :=
  ⟨_, rfl, rfl, by decide⟩

/-- An acceptance from a state of the invariant. -/
theorem witness_EveryStepKeepsTheInvariant :
    ∃ t, Inv (showing5 [offerInput 0x01#8 9 2]) ∧ step (showing5 [offerInput 0x01#8 9 2]) = .next t :=
  ⟨_, witness_inv_ready, rfl⟩

/-- The unit at power-up, whatever its draws, with reset asserted. -/
theorem witness_OneResetEdgeIsEnough :
    (portSample (powerUp 2 [resetInput])).rst = true ∧ (portSample (powerUp 2 [resetInput])).secondAgent = false :=
  ⟨rfl, rfl⟩

/-- The unit at power-up with a command offered. -/
theorem witness_BeforeTheFirstResetEveryBitIsDrawn :
    (powerUp 2 [offerInput 0x00#8 1 2]).resetSeen = false ∧ Quiet (portSample (powerUp 2 [offerInput 0x00#8 1 2])) :=
  ⟨rfl, rfl, rfl⟩

/-- Any state after the first reset, as the laws of sequences and R29's statement take it. -/
theorem witness_afterReset : (showing5 []).resetSeen = true ∧ (resetUnit (powerUp 2 [])).resetSeen = true := ⟨rfl, rfl⟩

/-- A comparison of 32-bit width as the last legal command, and a run without one; and three edges after a reset. -/
theorem witness_RunsKeepTheSummary :
    lastLegal [.command { cmd := 0x04#8, a := 1, b := 2 }, .command { cmd := 0x0A#8, a := 1, b := 2 }] none = some .cmp32 ∧
      Instr.width .cmp32 = .w32 ∧ Instr.op .cmp32 = .cmp ∧
      lastLegal [.command { cmd := 0x04#8, a := 1, b := 2 }, .reset] none = none ∧
      ∃ t, Host.Core.run Sys2Proof.core 3 (resetUnit (showing5 [offerInput 0x04#8 1 2])) = .next t :=
  ⟨by decide, by decide, by decide, by decide, _, rfl⟩

/-- The completion edge of a command in flight, and an edge that accepts and completes. -/
theorem witness_StepRunsTheDecodedCommand :
    Quiet (portSample (subInFlight 1 [])) ∧ (subInFlight 1 []).busy = true ∧ (subInFlight 1 []).remaining ≤ 1 ∧
      decode (subInFlight 1 []).latch.cmd = .ok .sub32 ∧ Quiet (portSample (driven [offerInput 0x19#8 1 0])) ∧
      (driven [offerInput 0x19#8 1 0]).busy = false ∧ (portSample (driven [offerInput 0x19#8 1 0])).cmdValid = true ∧
      (driven [offerInput 0x19#8 1 0]).latency = 1 ∧ decode (portSample (driven [offerInput 0x19#8 1 0])).cmd = .ok .clz128 := by
  decide

theorem witness_PlacedWordIsWhatRuns : decodeTableWord 8 0x05 = some .and32 ∧ decodeTableWord 8 0x14 = some .cmp128 := by
  decide

/-- With a second agent and a reset at one edge; and with neither. -/
theorem witness_OnlyASecondAgentIsRefused :
    (portSample (driven [{ resetInput with secondAgent := true }])).secondAgent = true ∧
      (portSample (driven [])).secondAgent = false := by decide

/-- Two edges without an offer, whatever stands on the other ports. -/
theorem witness_IdleEdgesChangeNothing :
    (driven [{ idleInput with a := 5 }]).busy = false ∧
      ∀ p ∈ (driven [{ idleInput with a := 5 }]).inputs.take 2, Quiet p ∧ p.cmdValid = false := by decide

/-- A step at `LATENCY = 3`. -/
theorem witness_LatencyIsFixed : ∃ t, step (subInFlight 1 []) = .next t := ⟨_, rfl⟩

/-- Two edges at `LATENCY = 1` from a state of the invariant, a command accepted at the first. -/
theorem witness_NeverBusyAtLatencyOne :
    ∃ t, Inv (driven [offerInput 0x00#8 3 4]) ∧ (driven [offerInput 0x00#8 3 4]).latency = 1 ∧
      Host.Core.run Sys2Proof.core 2 (driven [offerInput 0x00#8 3 4]) = .next t := by
  refine ⟨_, ⟨rfl, ⟨by decide, fun h => absurd rfl h⟩, fun h => ?_, fun _ => rfl⟩, rfl, rfl⟩
  cases h

/-- The first and the last byte of each buffer. -/
theorem witness_ByteViewIsBigEndian : (0 < 16) ∧ (15 < 16) ∧ (0 < 4) ∧ (3 < 4) := by decide

/-- The greatest value of a 4-byte buffer. -/
theorem witness_ByteViewRoundTrips : 0xFFFFFFFF < 2 ^ (8 * 4) := by decide

theorem witness_HalvesHoldTheirBytes :
    (List.replicate 16 (0xAB#8)).length = 16 ∧ [192#8, 0#8, 2#8, 130#8].length = 4 := by decide

/-- The least and the greatest `x` of each width, and `p` at both ends. -/
theorem witness_PseudoInstructionsHaveTheirEffect :
    0 < 2 ^ Width.w32.bits ∧ 0xFFFFFFFF < 2 ^ Width.w32.bits ∧ 31 < Width.w32.bits ∧
      0xFFFFFFFFFFFFFFFFFFFFFFFFFFFFFFFF < 2 ^ Width.w128.bits ∧ 0 ≤ Width.w128.bits ∧ 128 ≤ Width.w128.bits := by decide

/-- An accepted line; the least values that are refused, at both widths; a line with two fitting values. -/
theorem witness_AssembledTextIsWellFormed :
    parseLine ['N', 'O', 'T', '.', '3', '2', ' ', '7'] = some (.command (AsmLine.mk .not32 (.value 7) (.value 0))) ∧
      parseText ['O', 'R', '.', '3', '2', ' ', '7', ',', 'Y'] = some (.command (AsmLine.mk .or32 (.value 7) .resultY)) ∧
      2 ^ (Instr.width .add32).bits ≤ 4294967296 ∧ Op.isUnary (Instr.op .add32) = false ∧
      2 ^ Width.w128.bits ≤ 0x100000000000000000000000000000000 ∧ Width.w32.bits < 33 ∧ Width.w128.bits < 129 := by
  decide

/-- A refused line as it is written: the value `2^32` at `W = 32`. -/
theorem test_parse_refuses :
    parseLine ['N', 'O', 'T', '.', '3', '2', ' ', '4', '2', '9', '4', '9', '6', '7', '2', '9', '6'] = none := by decide

/-- The greatest values of each width, a unary line, and `MASK`'s lengths at both ends. -/
theorem witness_PrintedTextParsesBack :
    4294967295 < 2 ^ (Instr.width .add32).bits ∧ Op.isUnary (Instr.op .not32) = true ∧
      4294967295 < 2 ^ Width.w32.bits ∧ 0 ≤ Width.w32.bits ∧ 128 ≤ Width.w128.bits := by decide

/-- What the printer writes. -/
theorem test_print :
    printText false (.command (AsmLine.mk .add32 (.value 10) .resultY)) =
        ['A', 'D', 'D', '.', '3', '2', ' ', '1', '0', ',', ' ', 'Y'] ∧
      printText true (.pseudo (.bitlen .w128 (.value 255))) =
        ['B', 'I', 'T', 'L', 'E', 'N', '.', '1', '2', '8', ' ', '0', 'x', 'f', 'f'] := by decide

/-- A legal word and an illegal one in the latch. -/
theorem witness_EveryCommandHasItsFrame :
    decode (withLatch 0x19#8 1 0).latch.cmd = .ok .clz128 ∧
      decode (withLatch 0x0A#8 1 1).latch.cmd = .error .reservedOp := by decide

end Sys2Proof.Tests
end

section
/-! The rules of the state (10_state.md R17 to R20, R28): what each legal command leaves in `C`, `Z` and `ORD`, that every
edge is a refinement of the command-level steps it completes, and with both the summary of R28 in every reachable
state. -/

namespace Sys2Proof.Machine

/-! ### The flags of a command's result (R17 to R19) -/

theorem commandResult_c_of_add {i : Instr} (l : Latch) (h : i.op = .add) :
    (commandResult i l).c = true ↔ 2 ^ i.width.bits ≤ atWidth i.width l.a + atWidth i.width l.b := by
  simp only [commandResult, h, opResult, addResult_c]

/-- The borrow of SUB and CMP (R17). -/
theorem commandResult_c_of_sub_or_cmp {i : Instr} (l : Latch) (h : i.op = .sub ∨ i.op = .cmp) :
    (commandResult i l).c = true ↔ atWidth i.width l.a < atWidth i.width l.b := by
  rcases h with h | h
  · simp only [commandResult, h, opResult, subResult_c]
  · rw [commandResult_of_cmp l h, cmpResult_c]

/-- No other operation has a carry (R17). -/
theorem commandResult_c_of_ne {i : Instr} (l : Latch) (hadd : i.op ≠ .add) (hsub : i.op ≠ .sub) (hcmp : i.op ≠ .cmp) :
    (commandResult i l).c = false := by
  unfold commandResult
  cases ho : i.op with
  | add => exact absurd ho hadd
  | sub => exact absurd ho hsub
  | cmp => exact absurd ho hcmp
  | shl | shr | and | or | not | ctz | clz => rfl

theorem commandResult_ord_of_cmp {i : Instr} (l : Latch) (h : i.op = .cmp) :
    (commandResult i l).ord = compareOrd (atWidth i.width l.a) (atWidth i.width l.b) := by
  rw [commandResult_of_cmp l h, cmpResult_ord]

/-- `ORD` holds an outcome exactly after CMP (R19, R28). -/
theorem commandResult_ord_ne_none_iff (i : Instr) (l : Latch) : (commandResult i l).ord ≠ .none ↔ i.op = .cmp := by
  constructor
  · intro hord
    by_contra hop
    exact hord (commandResult_ord_of_ne l hop)
  · intro hop
    rw [commandResult_ord_of_cmp l hop]
    exact compareOrd_ne_none _ _

/-- `ERR` is sticky under every command (R20). -/
theorem performed_err_of_err {s : State} (h : s.err = true) : (performed s).err = true := by
  cases hd : decode s.latch.cmd with
  | ok i => rw [performed_of_ok hd, writeResult_err, h]
  | error e => rw [performed_of_error hd, raiseIllegalCommand_err]

/-- After the first reset no edge without a reset clears `ERR` (R20). -/
theorem step_keeps_err {s t : State} (hs : s.resetSeen = true) (he : s.err = true) (hr : (portSample s).rst = false)
    (h : step s = .next t) : t.err = true := by
  cases edgeCase s with
  | secondAgent h2 => rw [step_secondAgent h2] at h; cases h
  | reset _ hr' => exact absurd hr' (by simp [hr])
  | beforeReset _ hs' => exact absurd hs (by simp [hs'])
  | completion hq _ hb hk =>
    rw [step_completion hq hs hb hk] at h
    cases h
    exact performed_err_of_err he
  | wait hq _ hb hk => rw [step_wait hq hs hb hk] at h; cases h; exact he
  | acceptAndComplete hq _ hb hv hl =>
    rw [step_acceptAndComplete hq hs hb hv hl] at h
    cases h
    exact performed_err_of_err he
  | accept hq _ hb hv hl => rw [step_accept hq hs hb hv hl] at h; cases h; exact he
  | idle hq _ hb hv => rw [step_idle hq hs hb hv] at h; cases h; exact he

/-! ### The summary of R28, command by command -/

/-- The bits above a value of the low 32 bits are 0. -/
theorem extractLsb'_32_96_eq_zero {v : Word} (h : v.toNat < 2 ^ 32) : v.extractLsb' 32 96 = 0 := by
  apply BitVec.eq_of_toNat_eq
  rw [BitVec.extractLsb'_toNat, Nat.shiftRight_eq_div_pow, Nat.div_eq_of_lt h]
  rfl

/-- After `W = 32` the upper bits of `Y` are 0 (R16, R28). -/
theorem writeResult_commandResult_upper {i : Instr} (hw : i.width = .w32) (l : Latch) (s : State) :
    (writeResult (commandResult i l) s).y.extractLsb' 32 96 = 0 := by
  have hlt : (commandResult i l).res < 2 ^ i.width.bits := commandResult_lt i l
  apply extractLsb'_32_96_eq_zero
  rw [writeResult_toNat hlt]
  rwa [hw] at hlt

/-- Every legal command leaves flags that agree with `Y` and `ORD` (R28). -/
theorem flagsAgree_writeResult (i : Instr) (l : Latch) (s : State) :
    FlagsAgree (writeResult (commandResult i l) s) := by
  refine ⟨writeResult_z_iff _ s, fun hord => ?_⟩
  have hop : i.op = .cmp := (commandResult_ord_ne_none_iff i l).mp hord
  have hy : (writeResult (commandResult i l) s).y =
      (ordBits (writeResult (commandResult i l) s).ord).setWidth 128 := by
    rw [writeResult_y, writeResult_ord, commandResult_of_cmp l hop, cmpResult_y, cmpResult_ord]
  refine ⟨hy, ?_, ?_⟩
  · rw [writeResult_c, writeResult_ord, commandResult_c_of_sub_or_cmp l (.inr hop), commandResult_ord_of_cmp l hop,
      compareOrd_lt_iff]
  · rw [writeResult_z_iff, hy]
    cases (writeResult (commandResult i l) s).ord <;> decide

/-- The summary of R28 is its part about one state, and what the last legal command says of `Y` and `ORD`. -/
theorem summaryHolds_of_flagsAgree {last : Option Instr} {s : State} (hf : FlagsAgree s)
    (hupper : ∀ i, last = some i → i.width = .w32 → s.y.extractLsb' 32 96 = 0)
    (hord : s.ord ≠ .none ↔ ∃ i, last = some i ∧ i.op = .cmp) : SummaryHolds last s :=
  ⟨hf.1, hupper, hord, fun i hi hop => hf.2 (hord.mpr ⟨i, hi, hop⟩)⟩

theorem summaryHolds_writeResult (i : Instr) (l : Latch) (s : State) :
    SummaryHolds (some i) (writeResult (commandResult i l) s) := by
  refine summaryHolds_of_flagsAgree (flagsAgree_writeResult i l s) ?_ ?_
  · rintro j ⟨⟩ hw
    exact writeResult_commandResult_upper hw l s
  · simpa using commandResult_ord_ne_none_iff i l

/-- The reset values satisfy the summary with no legal command yet (R26, R28). -/
theorem summaryHolds_resetUnit (s : State) : SummaryHolds none (resetUnit s) := by
  refine summaryHolds_of_flagsAgree ⟨?_, fun hord => absurd rfl hord⟩ ?_ ?_ <;> simp

/-- The summary speaks of what the host observes alone. -/
theorem summaryHolds_congr {last : Option Instr} {s t : State} (h : visible s = visible t) (hs : SummaryHolds last s) :
    SummaryHolds last t := by
  simp only [visible, Visible.mk.injEq] at h
  obtain ⟨hy, hc, hz, hord, -⟩ := h
  unfold SummaryHolds at hs ⊢
  rwa [hy, hc, hz, hord] at hs

/-- An illegal command writes `ERR` alone, of which the summary does not speak (R29). -/
theorem summaryHolds_raiseIllegalCommand (last : Option Instr) (s : State) :
    SummaryHolds last (raiseIllegalCommand s) ↔ SummaryHolds last s := Iff.rfl

theorem lastLegal_command_of_ok {r : Request} {i : Instr} (h : decode r.cmd = .ok i) (cs : List CommandStep)
    (last : Option Instr) : lastLegal (.command r :: cs) last = lastLegal cs (some i) := by
  simp only [lastLegal, h]

theorem lastLegal_command_of_error {r : Request} {e : DecodeError} (h : decode r.cmd = .error e)
    (cs : List CommandStep) (last : Option Instr) : lastLegal (.command r :: cs) last = lastLegal cs last := by
  simp only [lastLegal, h]

/-- The last legal command of steps is found one step at a time. -/
theorem lastLegal_cons (c : CommandStep) (cs : List CommandStep) (last : Option Instr) :
    lastLegal (c :: cs) last = lastLegal cs (lastLegal [c] last) := by
  cases c with
  | reset => rfl
  | command r =>
    cases hd : decode r.cmd with
    | ok i => rw [lastLegal_command_of_ok hd, lastLegal_command_of_ok hd, lastLegal]
    | error e => rw [lastLegal_command_of_error hd, lastLegal_command_of_error hd, lastLegal]

/-- Every command-level step keeps the summary, and with it the last legal command. -/
theorem summaryHolds_afterCommandStep {last : Option Instr} {s : State} (hs : s.resetSeen = true)
    (h : SummaryHolds last s) (c : CommandStep) : SummaryHolds (lastLegal [c] last) (afterCommandStep c s) := by
  cases c with
  | reset => exact summaryHolds_resetUnit s
  | command r =>
    rw [afterCommandStep, afterRequest_of_resetSeen hs]
    cases hd : decode r.cmd with
    | ok i =>
      rw [lastLegal_command_of_ok hd, performed_latchCommand_of_ok hd]
      exact summaryHolds_writeResult i _ _
    | error e =>
      rw [lastLegal_command_of_error hd, performed_latchCommand_of_error hd]
      exact (summaryHolds_raiseIllegalCommand _ _).mpr h

/-- Every run of command-level steps keeps it. -/
theorem summaryHolds_runCommands {cs : List CommandStep} {last : Option Instr} {s t : State} (hs : s.resetSeen = true)
    (h : SummaryHolds last s) (hrun : runCommands cs s = .next t) : SummaryHolds (lastLegal cs last) t := by
  induction cs generalizing last s with
  | nil =>
    cases hrun
    exact h
  | cons c cs ih =>
    rw [runCommands_cons] at hrun
    rw [lastLegal_cons]
    exact ih (afterCommandStep_resetSeen hs c) (summaryHolds_afterCommandStep hs h c) hrun

/-! ### The command-level steps of an edge (70_reset_and_hazards.md R105) -/

theorem edgeSteps_reset {s : State} (hr : (portSample s).rst = true) : edgeSteps s = [.reset] := by
  simp [edgeSteps, hr]

theorem edgeSteps_completion {s : State} (hq : Quiet (portSample s)) (hb : s.busy = true) (hk : s.remaining ≤ 1) :
    edgeSteps s = [.command { cmd := s.latch.cmd, a := s.latch.a, b := s.latch.b }] := by
  simp [edgeSteps, hq.1, hb, hk]

theorem edgeSteps_wait {s : State} (hq : Quiet (portSample s)) (hb : s.busy = true) (hk : ¬ s.remaining ≤ 1) :
    edgeSteps s = [] := by
  simp [edgeSteps, hq.1, hb, hk]

theorem edgeSteps_acceptAndComplete {s : State} (hq : Quiet (portSample s)) (hb : s.busy = false)
    (hv : (portSample s).cmdValid = true) (hl : s.latencyMinusOne = 0) :
    edgeSteps s = [.command { cmd := (portSample s).cmd, a := (portSample s).a, b := (portSample s).b }] := by
  simp [edgeSteps, hq.1, hb, hv, hl]

/-- An edge that accepts a command without completing it, or at which nothing is offered, completes nothing. -/
theorem edgeSteps_of_ready {s : State} (hq : Quiet (portSample s)) (hb : s.busy = false)
    (h : (portSample s).cmdValid = false ∨ s.latencyMinusOne ≠ 0) : edgeSteps s = [] := by
  rcases h with h | h <;> simp [edgeSteps, hq.1, hb, h]

/-- One edge shows what the command-level steps that it completes produce (R105), and the unit stays after its first
reset. -/
theorem step_refines_edgeSteps {s t : State} (hs : s.resetSeen = true) (h : step s = .next t) :
    t.resetSeen = true ∧ ∃ u, runCommands (edgeSteps s) s = .next u ∧ visible u = visible t := by
  cases edgeCase s with
  | secondAgent h2 => rw [step_secondAgent h2] at h; cases h
  | reset h2 hr =>
    rw [step_reset h2 hr] at h
    cases h
    rw [edgeSteps_reset hr, runCommands_cons]
    exact ⟨rfl, _, rfl, rfl⟩
  | beforeReset _ hs' => exact absurd hs (by simp [hs'])
  | completion hq _ hb hk =>
    rw [step_completion hq hs hb hk] at h
    cases h
    rw [edgeSteps_completion hq hb hk, runCommands_cons, afterCommandStep, afterRequest_of_resetSeen hs]
    exact ⟨by simpa using hs, _, rfl, visible_performed_congr rfl rfl⟩
  | wait hq _ hb hk =>
    rw [step_wait hq hs hb hk] at h
    cases h
    rw [edgeSteps_wait hq hb hk]
    exact ⟨hs, s, rfl, rfl⟩
  | acceptAndComplete hq _ hb hv hl =>
    rw [step_acceptAndComplete hq hs hb hv hl] at h
    cases h
    rw [edgeSteps_acceptAndComplete hq hb hv hl, runCommands_cons, afterCommandStep, afterRequest_of_resetSeen hs]
    exact ⟨by simpa [accepted] using hs, _, rfl, visible_performed_congr rfl rfl⟩
  | accept hq _ hb hv hl =>
    rw [step_accept hq hs hb hv hl] at h
    cases h
    rw [edgeSteps_of_ready hq hb (.inr hl)]
    exact ⟨hs, s, rfl, rfl⟩
  | idle hq _ hb hv =>
    rw [step_idle hq hs hb hv] at h
    cases h
    rw [edgeSteps_of_ready hq hb (.inl hv)]
    exact ⟨hs, s, rfl, rfl⟩

theorem completedSteps_succ_of_step {s t : State} (h : step s = .next t) (k : Nat) :
    completedSteps (k + 1) s = edgeSteps s ++ completedSteps k t := by
  simp only [completedSteps, h]

/-- Runs of the command-level model compose. -/
theorem runCommands_append_of_run {cs : List CommandStep} {s t : State} (h : runCommands cs s = .next t)
    (ds : List CommandStep) : runCommands (cs ++ ds) s = runCommands ds t := by
  obtain ⟨u, hu, happend⟩ := runCommands_append cs ds s
  have hut : u = t := Host.Outcome.next.inj (hu.symm.trans h)
  rw [happend, hut]

/-- A run of edges shows what the command-level steps that it completes produce, in their order (R105). -/
theorem run_refines_completedSteps {k : Nat} {s t : State} (hs : s.resetSeen = true)
    (h : Host.Core.run Sys2Proof.core k s = .next t) :
    ∃ u, runCommands (completedSteps k s) s = .next u ∧ visible u = visible t := by
  induction k generalizing s with
  | zero =>
    cases h
    exact ⟨_, rfl, rfl⟩
  | succ k ih =>
    obtain ⟨s₁, hstep, hrun⟩ := step_of_run_succ h
    obtain ⟨hs₁, u₁, hu₁, hvis₁⟩ := step_refines_edgeSteps hs hstep
    obtain ⟨v, hv, hvis⟩ := ih hs₁ hrun
    obtain ⟨u, hu, huv⟩ := visible_runCommands_congr _ hs₁ (runCommands_resetSeen hs hu₁) hvis₁.symm hv
    refine ⟨u, ?_, huv.symm.trans hvis⟩
    rw [completedSteps_succ_of_step hstep, runCommands_append_of_run hu₁, hu]

/-! ### The obligations -/

/-- Settles O45: every command-level step keeps the summary, and after any number of edges the host observes what the
completed steps produce. -/
theorem runsKeepTheSummary : Obligations.RunsKeepTheSummary := by
  unfold Obligations.RunsKeepTheSummary
  refine ⟨fun cs s₀ => ?_, fun k s₀ t h => ?_⟩
  · obtain ⟨t, ht⟩ := runCommands_total cs (resetUnit s₀)
    exact ⟨t, ht, summaryHolds_runCommands (resetUnit_resetSeen s₀) (summaryHolds_resetUnit s₀) ht⟩
  · obtain ⟨u, hu, hvis⟩ := run_refines_completedSteps (resetUnit_resetSeen s₀) h
    exact summaryHolds_congr hvis
      (summaryHolds_runCommands (resetUnit_resetSeen s₀) (summaryHolds_resetUnit s₀) hu)

/-- Settles O27: the carry of each command's result is what `exec` writes. -/
theorem carryFlagRule : Obligations.CarryFlagRule := by
  unfold Obligations.CarryFlagRule
  intro i s
  exact ⟨_, exec_eq i s, commandResult_c_of_add s.latch, commandResult_c_of_sub_or_cmp s.latch,
    commandResult_c_of_ne s.latch⟩

/-- Settles O28: `exec` writes by `writeResult`, and the exception leaves `Z`. -/
theorem zeroFlagRule : Obligations.ZeroFlagRule := by
  unfold Obligations.ZeroFlagRule
  refine ⟨fun i s => ⟨_, exec_eq i s, writeResult_z_iff _ s⟩, fun s e he => ⟨_, perform_eq s, ?_⟩⟩
  rw [performed_of_error he, raiseIllegalCommand_z]

/-- Settles O29: CMP writes `compareOrd` of its operands, and the exception leaves `ORD`. -/
theorem ordFieldRule : Obligations.OrdFieldRule := by
  unfold Obligations.OrdFieldRule
  refine ⟨rfl, rfl, rfl, rfl, rfl, fun i s => ⟨_, exec_eq i s, rfl, fun hop => ?_, ?_⟩,
    fun s e he => ⟨_, perform_eq s, ?_⟩⟩
  · rw [writeResult_ord, commandResult_ord_of_cmp s.latch hop]
    exact ⟨compareOrd_eq_iff _ _, compareOrd_gt_iff _ _, compareOrd_lt_iff _ _⟩
  · exact commandResult_ord_of_ne s.latch
  · rw [performed_of_error he, raiseIllegalCommand_ord]

/-- Settles O30: the exception sets `ERR`, `writeResult` leaves it, and no edge but a reset edge clears it. -/
theorem errFlagRule : Obligations.ErrFlagRule := by
  unfold Obligations.ErrFlagRule
  refine ⟨fun s e he => ⟨_, perform_eq s, ?_⟩, fun i s => ⟨_, exec_eq i s, writeResult_err _ s⟩,
    fun s t hs herr hstep hclear => ?_⟩
  · rw [performed_of_error he, raiseIllegalCommand_err]
  · by_contra hr
    have hset : t.err = true := step_keeps_err hs herr (Bool.eq_false_of_not_eq_true hr) hstep
    rw [hclear] at hset
    cases hset

end Sys2Proof.Machine
end

section
/-! The byte view of a port value (20_memory.md R33 to R35): the value of a buffer and the buffer of a value undo each
other up to `mod 2^(8n)`, the value of two buffers in a row, and the port value of a buffer that fits a port. -/

namespace Sys2Proof.Machine

/-! ### The value of a buffer and the buffer of a value (R33, R34) -/

theorem beValue_lt (buf : List Byte) : beValue buf < 2 ^ (8 * buf.length) := by
  induction buf with
  | nil => decide
  | cons x xs ih =>
    calc x.toNat * 2 ^ (8 * xs.length) + beValue xs
        < (x.toNat + 1) * 2 ^ (8 * xs.length) := by
          rw [Nat.succ_mul x.toNat]
          exact Nat.add_lt_add_left ih _
      _ ≤ 2 ^ 8 * 2 ^ (8 * xs.length) := Nat.mul_le_mul_right _ x.isLt
      _ = 2 ^ (8 * (x :: xs).length) := by rw [← pow_add, List.length_cons, Nat.mul_succ, Nat.add_comm]

/-- The bytes of `xs` stand above those of `ys`. -/
theorem beValue_append (xs ys : List Byte) :
    beValue (xs ++ ys) = beValue xs * 2 ^ (8 * ys.length) + beValue ys := by
  induction xs with
  | nil => simp [beValue]
  | cons x xs ih =>
    rw [List.cons_append, beValue, beValue, ih, List.length_append, Nat.mul_add, pow_add]
    ring

@[simp] theorem beBytes_length (n v : Nat) : (beBytes n v).length = n := by
  induction n with
  | zero => rfl
  | succ n ih => rw [beBytes, List.length_cons, ih]

/-- A buffer holds its value `mod 2^(8n)`: the bits of `v` above are dropped. -/
theorem beValue_beBytes (n v : Nat) : beValue (beBytes n v) = v % 2 ^ (8 * n) := by
  induction n with
  | zero => simp [beBytes, beValue, Nat.mod_one]
  | succ n ih =>
    rw [beBytes, beValue, beBytes_length, ih, BitVec.toNat_ofNat, Nat.mul_succ, pow_add, Nat.mod_mul]
    ring

/-- What stands above the low `8n` bits of a value does not reach its `n`-byte buffer. -/
theorem beBytes_mul_add (n h v : Nat) : beBytes n (2 ^ (8 * n) * h + v) = beBytes n v := by
  induction n generalizing h with
  | zero => rfl
  | succ n ih =>
    have hsplit : 2 ^ (8 * (n + 1)) * h = 2 ^ (8 * n) * (2 ^ 8 * h) := by rw [Nat.mul_succ, pow_add, Nat.mul_assoc]
    have hhead : BitVec.ofNat 8 ((2 ^ (8 * n) * (2 ^ 8 * h) + v) / 2 ^ (8 * n)) = BitVec.ofNat 8 (v / 2 ^ (8 * n)) := by
      apply BitVec.eq_of_toNat_eq
      rw [Nat.mul_add_div (Nat.two_pow_pos _), BitVec.toNat_ofNat, BitVec.toNat_ofNat, Nat.mul_add_mod]
    rw [hsplit, beBytes, beBytes, hhead, ih]

theorem beBytes_beValue (buf : List Byte) : beBytes buf.length (beValue buf) = buf := by
  induction buf with
  | nil => rfl
  | cons x xs ih =>
    have hhead : (2 ^ (8 * xs.length) * x.toNat + beValue xs) / 2 ^ (8 * xs.length) = x.toNat := by
      rw [Nat.mul_add_div (Nat.two_pow_pos _), Nat.div_eq_of_lt (beValue_lt xs), Nat.add_zero]
    rw [List.length_cons, beBytes, beValue, Nat.mul_comm x.toNat, hhead, beBytes_mul_add, ih,
      BitVec.ofNat_toNat, BitVec.setWidth_eq]

/-! ### The port value of a buffer and its two halves (R35) -/

theorem hi_toNat (v : Word) : (hi v).toNat = v.toNat / 2 ^ 64 := by
  rw [hi, BitVec.extractLsb'_toNat, Nat.shiftRight_eq_div_pow]
  omega

theorem lo_toNat (v : Word) : (lo v).toNat = v.toNat % 2 ^ 64 := by
  rw [lo, BitVec.extractLsb'_toNat, Nat.shiftRight_zero]

/-- A buffer of at most 16 bytes fits the port. -/
theorem portOfBytes_toNat {buf : List Byte} (h : buf.length ≤ 16) : (portOfBytes buf).toNat = beValue buf := by
  have hfits : beValue buf < 2 ^ 128 := (beValue_lt buf).trans_le (Nat.pow_le_pow_right two_pos (by omega))
  rw [portOfBytes, BitVec.toNat_ofNat, Nat.mod_eq_of_lt hfits]

/-- A 16-byte buffer on the port: its first eight bytes above its last eight. -/
theorem portOfBytes_toNat_take_drop {buf : List Byte} (h : buf.length = 16) :
    (portOfBytes buf).toNat = beValue (buf.take 8) * 2 ^ 64 + beValue (buf.drop 8) := by
  have happend := beValue_append (buf.take 8) (buf.drop 8)
  rwa [List.take_append_drop, List.length_drop, h, ← portOfBytes_toNat h.le] at happend

/-! ### The obligations -/

/-- Settles O55: a buffer is that of its value, and a value below `2^(8n)` is its own remainder. -/
theorem byteViewRoundTrips : Obligations.ByteViewRoundTrips := by
  unfold Obligations.ByteViewRoundTrips
  refine ⟨beBytes_beValue, fun n v hv => ⟨beBytes_length n v, ?_⟩⟩
  rw [beValue_beBytes, Nat.mod_eq_of_lt hv]

/-- Settles O56: the last eight bytes of a 16-byte buffer fill the low half, and four bytes fit 32 bits. -/
theorem halvesHoldTheirBytes : Obligations.HalvesHoldTheirBytes := by
  unfold Obligations.HalvesHoldTheirBytes
  refine ⟨fun buf h => ?_, fun buf h => ?_⟩
  · have hlow : beValue (buf.drop 8) < 2 ^ 64 := by
      simpa [h] using beValue_lt (buf.drop 8)
    rw [hi_toNat, lo_toNat, portOfBytes_toNat_take_drop h]
    omega
  · have hfits : beValue buf < 2 ^ 32 := by simpa [h] using beValue_lt buf
    rw [BitVec.extractLsb'_toNat, Nat.shiftRight_zero, portOfBytes_toNat (by omega), Nat.mod_eq_of_lt hfits]

end Sys2Proof.Machine
end

section
/-! The encoding (30_encoding.md R44 to R51): a command word is its three fields, so a word decodes to a command exactly
when its fields are that command's, and is illegal exactly when a field holds a reserved value. -/

namespace Sys2Proof.Machine

/-! ### The fields of a word (R44) -/

/-- A word is its three fields in a row, and nothing else. -/
theorem word_eq_fields_iff (cmd : Byte) (rsvd : BitVec 3) (ws : BitVec 1) (op : BitVec 4) :
    cmd = rsvd ++ (ws ++ op) ↔ fieldRsvd cmd = rsvd ∧ fieldWs cmd = ws ∧ fieldOp cmd = op := by
  constructor
  · rintro rfl
    refine ⟨BitVec.extractLsb'_append_eq_left, ?_, ?_⟩
    · rw [fieldWs, BitVec.extractLsb'_append_eq_of_add_le (by decide), BitVec.extractLsb'_append_eq_left]
    · rw [fieldOp, BitVec.extractLsb'_append_eq_of_add_le (by decide), BitVec.extractLsb'_append_eq_right]
  · rintro ⟨rfl, rfl, rfl⟩
    have hlow : fieldWs cmd ++ fieldOp cmd = cmd.extractLsb' 0 5 :=
      BitVec.extractLsb'_append_extractLsb'_eq_extractLsb' rfl
    rw [hlow]
    exact (BitVec.extractLsb'_append_extractLsb' (w := 3) (len := 5)).symm

/-! ### The values of the fields (R45, R46, R50) -/

theorem decodeOp_eq_some_iff (v : BitVec 4) (o : Op) : decodeOp v = some o ↔ v = encodeOp o := by
  revert v
  cases o <;> decide

/-- The reserved `OP` values are `0xA` to `0xF` (R50). -/
theorem decodeOp_eq_none_iff (v : BitVec 4) : decodeOp v = none ↔ 10 ≤ v.toNat := by
  revert v
  decide

theorem decodeWidth_eq_iff (v : BitVec 1) (w : Width) : decodeWidth v = w ↔ v = encodeWidth w := by
  revert v
  cases w <;> decide

/-- A command is its operation at its width. -/
theorem ofOp_eq_iff (o : Op) (w : Width) (i : Instr) : Instr.ofOp o w = i ↔ o = i.op ∧ w = i.width := by
  constructor
  · rintro rfl
    exact ⟨(op_ofOp o w).symm, (width_ofOp o w).symm⟩
  · rintro ⟨rfl, rfl⟩
    cases i <;> rfl

/-! ### The decoder (R47, R50, R51) -/

/-- A word decodes to a command exactly when its fields are that command's (R47). -/
theorem decode_eq_ok_iff_fields (cmd : Byte) (i : Instr) :
    decode cmd = .ok i ↔
      fieldRsvd cmd = 0#3 ∧ fieldWs cmd = encodeWidth i.width ∧ fieldOp cmd = encodeOp i.op := by
  rw [← decodeWidth_eq_iff, ← decodeOp_eq_some_iff]
  unfold decode
  split_ifs with hr
  · simp [hr]
  · cases hop : decodeOp (fieldOp cmd) with
    | none => simp
    | some o => simp [ofOp_eq_iff, not_not.mp hr, and_comm]

theorem decode_eq_ok_iff_encode (cmd : Byte) (i : Instr) : decode cmd = .ok i ↔ cmd = encode i := by
  rw [decode_eq_ok_iff_fields, encode, word_eq_fields_iff]

/-- A reserved value in either field makes a word illegal, whatever the other fields hold (R50, R51). -/
theorem decode_error_of_reserved {cmd : Byte} (h : fieldRsvd cmd ≠ 0#3 ∨ 10 ≤ (fieldOp cmd).toNat) :
    ∃ e, decode cmd = .error e := by
  by_cases hr : fieldRsvd cmd = 0#3
  · have hop : decodeOp (fieldOp cmd) = none := (decodeOp_eq_none_iff _).mpr (h.resolve_left (not_not.mpr hr))
    exact ⟨.reservedOp, by simp [decode, hr, hop]⟩
  · exact ⟨.reservedBits, if_pos hr⟩

/-! ### The obligations -/

/-- Settles O3: a word decodes to a command exactly when its fields are that command's, and a word is its fields. -/
theorem legalWordsAreTheEncodings : Obligations.LegalWordsAreTheEncodings := by
  unfold Obligations.LegalWordsAreTheEncodings
  exact ⟨decode_eq_ok_iff_encode, by decide⟩

/-- Settles O4: a word with a reserved field has no decoding, so `Perform` takes the exception. -/
theorem illegalWordSetsErrOnly : Obligations.IllegalWordSetsErrOnly := by
  unfold Obligations.IllegalWordSetsErrOnly
  intro s h
  obtain ⟨e, he⟩ := decode_error_of_reserved h
  rw [perform_eq, performed_of_error he, raiseIllegalCommand]

end Sys2Proof.Machine
end

section
/-! The pseudo-instructions (30_encoding.md R57): the result each leaves, from what each of its lines computes. -/

namespace Sys2Proof.Machine

/-! ### Results that the expansions use -/

theorem one_lt_modulus (w : Width) : 1 < 2 ^ w.bits := by cases w <;> decide

theorem subResult_res_eq_mod {w : Width} {a b : Nat} (ha : a < 2 ^ w.bits) (hb : b < 2 ^ w.bits) :
    (subResult w a b).res = (a + 2 ^ w.bits - b) % 2 ^ w.bits := by
  rcases Nat.lt_or_ge a b with h | h
  · rw [subResult_res_of_lt w h, Nat.mod_eq_of_lt (by omega)]
  · rw [subResult_res_of_le w h, show a + 2 ^ w.bits - b = a - b + 2 ^ w.bits by omega, Nat.add_mod_right,
      Nat.mod_eq_of_lt (by omega)]

/-- A one shifted by an amount below `W` is the power of two, and by any other amount 0 (R69). -/
theorem shlResult_one_res (w : Width) (n : Nat) : (shlResult w 1 n).res = if n < w.bits then 2 ^ n else 0 := by
  split_ifs with h
  · rw [shlResult_res_of_lt 1 h, one_mul, Nat.mod_eq_of_lt (Nat.pow_lt_pow_right (by decide) h)]
  · exact shlResult_res_of_le 1 (not_lt.mp h)

/-- The low ones that MASK complements, those of `n = W` by the wrap from 0 (R57). -/
theorem subResult_shlResult_one_res {w : Width} {n : Nat} (h : n ≤ w.bits) :
    (subResult w (shlResult w 1 n).res 1).res = 2 ^ n - 1 := by
  rw [shlResult_one_res]
  rcases h.lt_or_eq with hlt | rfl
  · rw [if_pos hlt, subResult_res_of_le w (Nat.two_pow_pos n)]
  · rw [if_neg (lt_irrefl _), subResult_res_of_lt w one_pos, zero_add]

/-- `bitlen` by the binary logarithm (R78). -/
theorem bitlen_eq_log2 {n v : Nat} (h : v < 2 ^ n) : bitlen n v = if v = 0 then 0 else Nat.log2 v + 1 := by
  split_ifs with h0
  · exact Nat.le_zero.mp (bitlen_le_of_lt (by simp [h0]))
  · exact le_antisymm (bitlen_le_of_lt Nat.lt_log2_self) ((Nat.log2_lt h0).mpr (lt_two_pow_bitlen h))

/-- TST reports only whether the value is 0 (R57). -/
theorem ordBits_compareOrd_zero (x : Nat) : ordBits (compareOrd x 0) = if x = 0 then 0b00#2 else 0b01#2 := by
  split_ifs with h
  · rw [(compareOrd_eq_iff x 0).mpr h, ordBits]
  · rw [(compareOrd_gt_iff x 0).mpr (Nat.pos_of_ne_zero h), ordBits]

/-- For a length of at most `W` the host's amount does not wrap (R57). -/
theorem maskAmount_of_le {w : Width} {p : Nat} (h : p ≤ w.bits) : maskAmount w p = w.bits - p := by
  have hw : w.bits < 2 ^ w.bits := bits_lt_modulus w
  rw [maskAmount, modulus, Nat.mod_eq_of_lt (h.trans_lt hw),
    show w.bits + (2 ^ w.bits - p) = w.bits - p + 2 ^ w.bits by omega, Nat.add_mod_right, Nat.mod_eq_of_lt (by omega)]

/-- `MASK` with its amount written out. -/
theorem expandPseudo_mask {p : Nat} (hp : p ≤ w.bits) : expandPseudo (.mask w p) =
    [lineOf .shl w (.value 1) (.value (w.bits - p)), lineOf .sub w .resultY (.value 1),
      lineOf .not w .resultY (.value 0)] := by
  rw [expandPseudo, maskAmount_of_le hp]

/-! ### Lines that read `Y` (R57) -/

/-- A line whose `a` is `Y`, after a line on two values of the width. -/
theorem runLines_afterLine_resultY_value {o o' : Op} {w : Width} {a b c : Nat} {s : State} (hs : s.resetSeen = true)
    (ha : a < 2 ^ w.bits) (hb : b < 2 ^ w.bits) (hc : c < 2 ^ w.bits) (ls : List AsmLine) :
    runLines (lineOf o' w .resultY (.value c) :: ls) (afterLine o w a b s) =
      runLines ls (afterLine o' w (opResult o w a b).res c (afterLine o w a b s)) := by
  rw [runLines_resultY_value, afterLine_y ha hb]
  exact runLines_values (s := afterLine o w a b s) hs (opResult_lt o ha hb) hc ls

/-- A line whose `b` is `Y`, after a line on two values of the width. -/
theorem runLines_afterLine_value_resultY {o o' : Op} {w : Width} {a b c : Nat} {s : State} (hs : s.resetSeen = true)
    (ha : a < 2 ^ w.bits) (hb : b < 2 ^ w.bits) (hc : c < 2 ^ w.bits) (ls : List AsmLine) :
    runLines (lineOf o' w (.value c) .resultY :: ls) (afterLine o w a b s) =
      runLines ls (afterLine o' w c (opResult o w a b).res (afterLine o w a b s)) := by
  rw [runLines_value_resultY, afterLine_y ha hb]
  exact runLines_values (s := afterLine o w a b s) hs hc (opResult_lt o ha hb) ls

/-! ### Each pseudo-instruction's run and its effect (R57) -/

section
variable {w : Width} {x : Nat} {s : State} (hs : s.resetSeen = true) (hx : x < 2 ^ w.bits)
include hs

theorem runLines_clr :
    ∃ t, runLines (expandPseudo (.clr w)) s = .next t ∧ t.y = 0 ∧ t.z = true :=
  ⟨_, runLines_values hs (Nat.two_pow_pos _) (Nat.two_pow_pos _) [], rfl, rfl⟩

theorem runLines_mask {p : Nat} (hp : p ≤ w.bits) :
    ∃ t, runLines (expandPseudo (.mask w p)) s = .next t ∧ t.y.toNat = 2 ^ w.bits - 2 ^ (w.bits - p) := by
  have hn : w.bits - p < 2 ^ w.bits := (Nat.sub_le _ _).trans_lt (bits_lt_modulus w)
  have hs' : (afterLine .shl w 1 (w.bits - p) s).resetSeen = true := hs
  have hshl : (opResult .shl w 1 (w.bits - p)).res < 2 ^ w.bits := opResult_lt _ (one_lt_modulus w) hn
  have hones : (opResult .sub w (opResult .shl w 1 (w.bits - p)).res 1).res = 2 ^ (w.bits - p) - 1 :=
    subResult_shlResult_one_res (Nat.sub_le _ _)
  rw [expandPseudo_mask hp, runLines_values hs (one_lt_modulus w) hn,
    runLines_afterLine_resultY_value hs (one_lt_modulus w) hn (one_lt_modulus w),
    runLines_afterLine_resultY_value hs' hshl (one_lt_modulus w) (Nat.two_pow_pos _)]
  refine ⟨_, rfl, ?_⟩
  rw [afterLine_y (opResult_lt _ hshl (one_lt_modulus w)) (Nat.two_pow_pos _), hones, opResult, notResult_res]
  have hpos : 0 < 2 ^ (w.bits - p) := Nat.two_pow_pos _
  omega

include hx

theorem runLines_mov :
    ∃ t, runLines (expandPseudo (.mov w (.value x))) s = .next t ∧ t.y.toNat = x := by
  refine ⟨_, runLines_values hs hx (Nat.two_pow_pos _) [], ?_⟩
  rw [afterLine_y hx (Nat.two_pow_pos _)]
  exact Nat.or_zero x

theorem runLines_inc :
    ∃ t, runLines (expandPseudo (.inc w (.value x))) s = .next t ∧ t.y.toNat = (x + 1) % 2 ^ w.bits ∧
      (t.c = true ↔ x + 1 = 2 ^ w.bits) := by
  refine ⟨_, runLines_values hs hx (one_lt_modulus w) [], afterLine_y hx (one_lt_modulus w) s, ?_⟩
  rw [afterLine_c, opResult, addResult_c]
  omega

theorem runLines_dec :
    ∃ t, runLines (expandPseudo (.dec w (.value x))) s = .next t ∧
      t.y.toNat = (x + 2 ^ w.bits - 1) % 2 ^ w.bits ∧ (t.c = true ↔ x = 0) := by
  refine ⟨_, runLines_values hs hx (one_lt_modulus w) [], ?_, ?_⟩
  · rw [afterLine_y hx (one_lt_modulus w), opResult, subResult_res_eq_mod hx (one_lt_modulus w)]
  · rw [afterLine_c, opResult, subResult_c]
    omega

theorem runLines_neg :
    ∃ t, runLines (expandPseudo (.neg w (.value x))) s = .next t ∧
      t.y.toNat = (2 ^ w.bits - x) % 2 ^ w.bits := by
  refine ⟨_, runLines_values hs (Nat.two_pow_pos _) hx [], ?_⟩
  rw [afterLine_y (Nat.two_pow_pos _) hx, opResult, subResult_res_eq_mod (Nat.two_pow_pos _) hx, zero_add]

theorem runLines_tst :
    ∃ t, runLines (expandPseudo (.tst w (.value x))) s = .next t ∧
      ordBits t.ord = if x = 0 then 0b00#2 else 0b01#2 :=
  ⟨_, runLines_values hs hx (Nat.two_pow_pos _) [], ordBits_compareOrd_zero x⟩

theorem runLines_pow2 :
    ∃ t, runLines (expandPseudo (.pow2 w (.value x))) s = .next t ∧
      t.y.toNat = if x < w.bits then 2 ^ x else 0 := by
  refine ⟨_, runLines_values hs (one_lt_modulus w) hx [], ?_⟩
  rw [afterLine_y (one_lt_modulus w) hx]
  exact shlResult_one_res w x

theorem runLines_bitlen :
    ∃ t, runLines (expandPseudo (.bitlen w (.value x))) s = .next t ∧
      t.y.toNat = if x = 0 then 0 else Nat.log2 x + 1 := by
  have hclz : (opResult .clz w x 0).res < 2 ^ w.bits := opResult_lt _ hx (Nat.two_pow_pos _)
  rw [expandPseudo, runLines_values hs hx (Nat.two_pow_pos _),
    runLines_afterLine_value_resultY hs hx (Nat.two_pow_pos _) (bits_lt_modulus w)]
  refine ⟨_, rfl, ?_⟩
  rw [afterLine_y (bits_lt_modulus w) hclz, opResult, opResult, clzResult_res, subResult_res_of_le w (clz_le _ _),
    sub_clz, bitlen_eq_log2 hx]

end

/-! ### The obligation -/

/-- Settles O57: each expansion with the effect of its run. -/
theorem pseudoInstructionsHaveTheirEffect : Obligations.PseudoInstructionsHaveTheirEffect := by
  unfold Obligations.PseudoInstructionsHaveTheirEffect
  intro w x s hs hx
  exact ⟨⟨rfl, runLines_mov hs hx⟩, ⟨rfl, runLines_clr hs⟩, ⟨rfl, runLines_inc hs hx⟩, ⟨rfl, runLines_dec hs hx⟩,
    ⟨rfl, runLines_neg hs hx⟩, ⟨rfl, runLines_tst hs hx⟩, ⟨rfl, runLines_pow2 hs hx⟩, ⟨rfl, runLines_bitlen hs hx⟩,
    fun _ hp => ⟨expandPseudo_mask hp, runLines_mask hs hp⟩⟩

end Sys2Proof.Machine
end

section
/-! Addition and subtraction (40_add_sub.md R59 to R63): the results as remainders, the halves of a difference, and the
laws of the host's sequences. -/

namespace Sys2Proof.Machine

/-! ### The results as remainders (R59, R61) -/

theorem addResult_res_of_lt {w : Width} {a b : Nat} (h : a + b < 2 ^ w.bits) : (addResult w a b).res = a + b :=
  Nat.mod_eq_of_lt h

/-- A sum of operands wraps at most once. -/
theorem addResult_res_of_le {w : Width} {a b : Nat} (ha : a < 2 ^ w.bits) (hb : b < 2 ^ w.bits)
    (h : 2 ^ w.bits ≤ a + b) : (addResult w a b).res = a + b - 2 ^ w.bits := by
  rw [addResult_res, Nat.mod_eq_sub_mod h, Nat.mod_eq_of_lt (by omega)]

/-- The two cases of R61 are the integer difference `mod 2^W`. -/
theorem subResult_res_eq_emod {w : Width} {a b : Nat} (ha : a < 2 ^ w.bits) (hb : b < 2 ^ w.bits) :
    ((subResult w a b).res : Int) = ((a : Int) - b) % (2 ^ w.bits : Nat) := by
  have hwrap : ((a + 2 ^ w.bits - b : Nat) : Int) = (a : Int) - b + (2 ^ w.bits : Nat) := by omega
  rw [subResult_res_eq_mod ha hb, Int.natCast_emod, hwrap, Int.add_emod_right]

/-! ### The halves of a difference (R62) -/

/-- The difference of two ports by halves: a borrow of the low halves is taken from the high ones. -/
theorem halvesOf_eq_subHalves (a b : Word) {y : Word} (hy : y.toNat = (subResult .w128 a.toNat b.toNat).res) :
    halvesOf y = subHalves a b := by
  have hdiff : (y.toNat : Int) = ((a.toNat : Int) - b.toNat) % (2 ^ 128 : Nat) := by
    rw [hy]
    exact subResult_res_eq_emod a.isLt b.isLt
  simp only [halvesOf, subHalves, subHalfBorrow, hi_toNat, lo_toNat, Halves.mk.injEq]
  constructor
  · split_ifs <;> omega
  · omega

/-- The high halves and the low borrow decide the comparison of the whole values. -/
theorem subHalvesBorrow_iff (a b : Word) : subHalvesBorrow a b = true ↔ a.toNat < b.toNat := by
  simp only [subHalvesBorrow, subHalfBorrow, hi_toNat, lo_toNat, decide_eq_true_iff]
  split_ifs <;> omega

/-! ### The laws of the results (R63) -/

theorem addResult_comm (w : Width) (a b : Nat) : addResult w a b = addResult w b a := by
  simp only [addResult, carryOut, Nat.add_comm a b]

theorem addResult_assoc_res (w : Width) (a b c : Nat) :
    (addResult w (addResult w a b).res c).res = (addResult w a (addResult w b c).res).res := by
  simp only [addResult_res, Nat.mod_add_mod, Nat.add_mod_mod, Nat.add_assoc]

theorem addResult_zero_res {w : Width} {a : Nat} (ha : a < 2 ^ w.bits) : (addResult w a 0).res = a :=
  addResult_res_of_lt ha

theorem addResult_zero_c {w : Width} {a : Nat} (ha : a < 2 ^ w.bits) : (addResult w a 0).c = false :=
  decide_eq_false (Nat.not_le.mpr ha)

/-- A difference that wraps is greater than the minuend, any other is not (R63, law 2). -/
theorem subResult_c_iff_lt_res {w : Width} (a : Nat) {b : Nat} (hb : b < 2 ^ w.bits) :
    (subResult w a b).c = true ↔ a < (subResult w a b).res := by
  rw [subResult_c]
  rcases Nat.lt_or_ge a b with h | h
  · rw [subResult_res_of_lt w h]
    omega
  · rw [subResult_res_of_le w h]
    omega

section
variable {w : Width} {a b : Nat} (ha : a < 2 ^ w.bits) (hb : b < 2 ^ w.bits)
include ha hb

/-- A sum that wraps is smaller than its operands, any other is not (R63, law 1). -/
theorem addResult_c_iff_res_lt_left : (addResult w a b).c = true ↔ (addResult w a b).res < a := by
  rw [addResult_c]
  rcases Nat.lt_or_ge (a + b) (2 ^ w.bits) with h | h
  · rw [addResult_res_of_lt h]
    omega
  · rw [addResult_res_of_le ha hb h]
    omega

theorem addResult_c_iff_res_lt_right : (addResult w a b).c = true ↔ (addResult w a b).res < b := by
  rw [addResult_comm]
  exact addResult_c_iff_res_lt_left hb ha

theorem addResult_subResult_res : (addResult w (subResult w a b).res b).res = a := by
  rw [addResult_res, subResult_res_eq_mod ha hb, Nat.mod_add_mod, Nat.sub_add_cancel (by omega), Nat.add_mod_right,
    Nat.mod_eq_of_lt ha]

theorem subResult_addResult_res : (subResult w (addResult w a b).res b).res = a := by
  rcases Nat.lt_or_ge (a + b) (2 ^ w.bits) with h | h
  · rw [addResult_res_of_lt h, subResult_res_of_le w (Nat.le_add_left b a), Nat.add_sub_cancel]
  · rw [addResult_res_of_le ha hb h, subResult_res_of_lt w (by omega)]
    omega

end

/-! ### The laws of the host's sequences (R63) -/

/-- `Z` after a line says whether its result is 0 (10_state.md R18). -/
theorem afterLine_z_iff {o : Op} {w : Width} {a b : Nat} (ha : a < 2 ^ w.bits) (hb : b < 2 ^ w.bits) (s : State) :
    (afterLine o w a b s).z = true ↔ (opResult o w a b).res = 0 := by
  rw [← afterLine_y ha hb s, ← BitVec.toNat_zero (w := 128), BitVec.toNat_inj]
  exact writeResult_z_iff _ _

/-- Adding 0 leaves `a` without a carry, and `Z` where `a` is 0. -/
theorem afterLine_add_zero {w : Width} {a : Nat} (ha : a < 2 ^ w.bits) (s : State) :
    (afterLine .add w a 0 s).y.toNat = a ∧ (afterLine .add w a 0 s).c = false ∧
      ((afterLine .add w a 0 s).z = true ↔ a = 0) := by
  rw [afterLine_y ha (Nat.two_pow_pos _), afterLine_c, afterLine_z_iff ha (Nat.two_pow_pos _), opResult,
    addResult_zero_res ha]
  exact ⟨rfl, addResult_zero_c ha, Iff.rfl⟩

section
variable {w : Width} {a : Nat} {s : State} (hs : s.resetSeen = true) (ha : a < 2 ^ w.bits)
include hs ha

theorem runLines_add_zero :
    ∃ t, runLines [lineOf .add w (.value a) (.value 0)] s = .next t ∧ t.y.toNat = a ∧ t.c = false ∧
      (t.z = true ↔ a = 0) :=
  ⟨_, runLines_values hs ha (Nat.two_pow_pos _) [], afterLine_add_zero ha s⟩

/-- The addend `2^W` is 0 at width `W`, so only `Z` detects the wrap (R63, law 6). -/
theorem runLines_shl_bits_add :
    ∃ t, runLines [lineOf .shl w (.value 1) (.value w.bits), lineOf .add w (.value a) .resultY] s = .next t ∧
      t.y.toNat = a ∧ t.c = false ∧ (t.z = true ↔ a = 0) := by
  have hzero : (opResult .shl w 1 w.bits).res = 0 := shlResult_res_of_le 1 le_rfl
  rw [runLines_values hs (one_lt_modulus w) (bits_lt_modulus w),
    runLines_afterLine_value_resultY hs (one_lt_modulus w) (bits_lt_modulus w) ha, hzero]
  exact ⟨_, rfl, afterLine_add_zero ha _⟩

variable {b : Nat} (hb : b < 2 ^ w.bits)
include hb

theorem runLines_add_carry :
    ∃ t, runLines [lineOf .add w (.value a) (.value b)] s = .next t ∧
      (t.c = true ↔ t.y.toNat < a) ∧ (t.c = true ↔ t.y.toNat < b) := by
  refine ⟨_, runLines_values hs ha hb [], ?_⟩
  rw [afterLine_y ha hb]
  exact ⟨addResult_c_iff_res_lt_left ha hb, addResult_c_iff_res_lt_right ha hb⟩

theorem runLines_sub_borrow :
    ∃ t, runLines [lineOf .sub w (.value a) (.value b)] s = .next t ∧ (t.c = true ↔ a < t.y.toNat) ∧
      (b = 0 → t.c = false) := by
  refine ⟨_, runLines_values hs ha hb [], ?_, fun hb0 => ?_⟩
  · rw [afterLine_y ha hb]
    exact subResult_c_iff_lt_res a hb
  · exact decide_eq_false (by omega)

theorem runLines_sub_add :
    ∃ t, runLines [lineOf .sub w (.value a) (.value b), lineOf .add w .resultY (.value b)] s = .next t ∧
      t.y.toNat = a := by
  rw [runLines_values hs ha hb, runLines_afterLine_resultY_value hs ha hb hb]
  exact ⟨_, rfl, (afterLine_y (opResult_lt .sub ha hb) hb _).trans (addResult_subResult_res ha hb)⟩

theorem runLines_add_sub :
    ∃ t, runLines [lineOf .add w (.value a) (.value b), lineOf .sub w .resultY (.value b)] s = .next t ∧
      t.y.toNat = a := by
  rw [runLines_values hs ha hb, runLines_afterLine_resultY_value hs ha hb hb]
  exact ⟨_, rfl, (afterLine_y (opResult_lt .add ha hb) hb _).trans (subResult_addResult_res ha hb)⟩

theorem runLines_add_comm :
    ∃ t u, runLines [lineOf .add w (.value a) (.value b)] s = .next t ∧
      runLines [lineOf .add w (.value b) (.value a)] s = .next u ∧ t.y = u.y := by
  refine ⟨_, _, runLines_values hs ha hb [], runLines_values hs hb ha [], BitVec.eq_of_toNat_eq ?_⟩
  rw [afterLine_y ha hb, afterLine_y hb ha, opResult, opResult, addResult_comm]

theorem runLines_add_assoc {c : Nat} (hc : c < 2 ^ w.bits) : ∃ t u,
    runLines [lineOf .add w (.value a) (.value b), lineOf .add w .resultY (.value c)] s = .next t ∧
      runLines [lineOf .add w (.value b) (.value c), lineOf .add w (.value a) .resultY] s = .next u ∧
      t.y = u.y := by
  rw [runLines_values hs ha hb, runLines_values hs hb hc, runLines_afterLine_resultY_value hs ha hb hc,
    runLines_afterLine_value_resultY hs hb hc ha]
  refine ⟨_, _, rfl, rfl, BitVec.eq_of_toNat_eq ?_⟩
  rw [afterLine_y (opResult_lt .add ha hb) hc, afterLine_y ha (opResult_lt .add hb hc)]
  exact addResult_assoc_res w a b c

theorem runLines_sub_cmp :
    ∃ t u, runLines [lineOf .sub w (.value a) (.value b)] s = .next t ∧
      runLines [lineOf .cmp w (.value a) (.value b)] s = .next u ∧ (t.c = true ↔ u.ord = .lt) := by
  refine ⟨_, _, runLines_values hs ha hb [], runLines_values hs ha hb [], ?_⟩
  rw [afterLine_c, afterLine_ord, opResult, opResult, subResult_c, cmpResult_ord, compareOrd_lt_iff]

end

/-! ### The obligations -/

/-- Settles O16: the halves of the integer difference, and the borrow of the halves as a comparison. -/
theorem subEqualsItsHalves : Obligations.SubEqualsItsHalves := by
  unfold Obligations.SubEqualsItsHalves
  intro s
  refine ⟨_, exec_sub128 s, ?_, ?_⟩
  · exact halvesOf_eq_subHalves _ _ (writeResult_toNat (subResult_lt s.latch.a.isLt) s)
  · rw [writeResult_c, Bool.eq_iff_iff, subResult_c, subHalvesBorrow_iff]

/-- Settles O22: each law by its run, from the law of the results. -/
theorem addSubLaws : Obligations.AddSubLaws := by
  unfold Obligations.AddSubLaws
  intro w a b s hs ha hb
  exact ⟨runLines_add_carry hs ha hb, runLines_sub_borrow hs ha hb, runLines_sub_add hs ha hb,
    runLines_add_sub hs ha hb, runLines_add_comm hs ha hb, fun _ hc => runLines_add_assoc hs ha hb hc,
    runLines_add_zero hs ha, runLines_sub_cmp hs ha hb, runLines_shl_bits_add hs ha⟩

/-- Settles O5: `exec` writes the sum's remainder and its carry. -/
theorem addWrapsAndCarries : Obligations.AddWrapsAndCarries := by
  unfold Obligations.AddWrapsAndCarries
  refine ⟨rfl, rfl, fun s => ?_, fun s => ?_⟩
  · exact ⟨_, exec_add32 s, onlyResults_writeResult _ s, writeResult_toNat (addResult_lt .w32 _ _) s,
      addResult_c .w32 _ _, writeResult_z_iff _ s, rfl⟩
  · exact ⟨_, exec_add128 s, onlyResults_writeResult _ s, writeResult_toNat (addResult_lt .w128 _ _) s,
      addResult_c .w128 _ _, writeResult_z_iff _ s, rfl⟩

/-- Settles O6: `exec` writes the integer difference's remainder and the borrow. -/
theorem subWrapsAndBorrows : Obligations.SubWrapsAndBorrows := by
  unfold Obligations.SubWrapsAndBorrows
  refine ⟨rfl, rfl, fun s => ?_, fun s => ?_⟩
  · have ha : s.latch.a.toNat % 2 ^ 32 < 2 ^ Width.w32.bits := Nat.mod_lt _ (Nat.two_pow_pos _)
    have hb : s.latch.b.toNat % 2 ^ 32 < 2 ^ Width.w32.bits := Nat.mod_lt _ (Nat.two_pow_pos _)
    refine ⟨_, exec_sub32 s, onlyResults_writeResult _ s, ?_, subResult_c .w32 _ _, writeResult_z_iff _ s, rfl⟩
    rw [writeResult_toNat (subResult_lt ha)]
    exact subResult_res_eq_emod ha hb
  · have ha : s.latch.a.toNat < 2 ^ Width.w128.bits := s.latch.a.isLt
    have hb : s.latch.b.toNat < 2 ^ Width.w128.bits := s.latch.b.isLt
    refine ⟨_, exec_sub128 s, onlyResults_writeResult _ s, ?_, subResult_c .w128 _ _, writeResult_z_iff _ s, rfl⟩
    rw [writeResult_toNat (subResult_lt ha)]
    exact subResult_res_eq_emod ha hb

end Sys2Proof.Machine
end

section
/-! Shifts (41_shift.md R64 to R69): each result as one formula for every amount, its halves at `W = 128`, and the laws
of the host's sequences. -/

namespace Sys2Proof.Machine

/-! ### The results for every amount (R65, R67, R69) -/

/-- From `W` on the power of two is a multiple of `2^W`, so the remainder is 0 as R65 says (R69). -/
theorem shlResult_res_eq_mod (w : Width) (a n : Nat) : (shlResult w a n).res = a * 2 ^ n % 2 ^ w.bits := by
  rcases Nat.lt_or_ge n w.bits with h | h
  · exact shlResult_res_of_lt a h
  · rw [shlResult_res_of_le a h, Nat.mod_eq_zero_of_dvd (Dvd.dvd.mul_left (Nat.pow_dvd_pow 2 h) a)]

/-- From `W` on the power of two exceeds every operand, so the quotient is 0 as R67 says (R69). -/
theorem shrResult_res_eq_div {w : Width} {a : Nat} (ha : a < 2 ^ w.bits) (n : Nat) :
    (shrResult w a n).res = a / 2 ^ n := by
  rcases Nat.lt_or_ge n w.bits with h | h
  · exact shrResult_res_of_lt a h
  · rw [shrResult_res_of_le a h, Nat.div_eq_of_lt (ha.trans_le (Nat.pow_le_pow_right two_pos h))]

/-- A right shift after a left one by the same amount leaves the bits that the left one did not discard (R69). -/
theorem shrResult_shlResult_res {w : Width} {n : Nat} (a : Nat) (h : n < w.bits) :
    (shrResult w (shlResult w a n).res n).res = a % 2 ^ (w.bits - n) := by
  rw [shrResult_res_of_lt _ h, shlResult_res_of_lt _ h, ← pow_sub_mul_pow 2 h.le, Nat.mul_mod_mul_right,
    Nat.mul_div_cancel _ (Nat.two_pow_pos n)]

/-! ### What the shifts write (R65, R67) -/

theorem writeResult_y_of_res_eq_zero {r : Result} (h : r.res = 0) (s : State) : (writeResult r s).y = 0 := by
  rw [writeResult_y, h]
  rfl

theorem writeResult_shlResult (w : Width) (a n : Nat) (s : State) :
    (n < w.bits → (writeResult (shlResult w a n) s).y.toNat = a * 2 ^ n % 2 ^ w.bits) ∧
      (w.bits ≤ n → (writeResult (shlResult w a n) s).y = 0) ∧ (writeResult (shlResult w a n) s).c = false ∧
      ((writeResult (shlResult w a n) s).z = true ↔ (writeResult (shlResult w a n) s).y = 0) ∧
      (writeResult (shlResult w a n) s).ord = .none := by
  refine ⟨fun h => ?_, fun h => writeResult_y_of_res_eq_zero (shlResult_res_of_le a h) s, rfl,
    writeResult_z_iff _ s, rfl⟩
  rw [writeResult_toNat (shlResult_lt w a n), shlResult_res_of_lt a h]

theorem writeResult_shrResult {w : Width} {a : Nat} (ha : a < 2 ^ w.bits) (n : Nat) (s : State) :
    (n < w.bits → (writeResult (shrResult w a n) s).y.toNat = a / 2 ^ n) ∧
      (w.bits ≤ n → (writeResult (shrResult w a n) s).y = 0) ∧ (writeResult (shrResult w a n) s).c = false ∧
      ((writeResult (shrResult w a n) s).z = true ↔ (writeResult (shrResult w a n) s).y = 0) ∧
      (writeResult (shrResult w a n) s).ord = .none := by
  refine ⟨fun h => ?_, fun h => writeResult_y_of_res_eq_zero (shrResult_res_of_le a h) s, rfl,
    writeResult_z_iff _ s, rfl⟩
  rw [writeResult_toNat (shrResult_lt n ha), shrResult_res_of_lt a h]

/-! ### The halves of a shifted value (R66, R68) -/

theorem halvesOf_eq_div_mod (v : Word) : halvesOf v = { hi := v.toNat / 2 ^ 64, lo := v.toNat % 2 ^ 64 } := by
  rw [halvesOf, toNat_hi, toNat_lo]

section
variable {a y : Word} {n : Nat}

/-- Below 64 the high half takes the top `n` bits of the low half; with `n = 0` it takes none (R66). -/
theorem halvesOf_shl_of_lt (hy : y.toNat = a.toNat * 2 ^ n % 2 ^ 128) (hn : n < 64) :
    halvesOf y = { hi := ((hi a).toNat * 2 ^ n + (lo a).toNat / 2 ^ (64 - n)) % 2 ^ 64
                   lo := (lo a).toNat * 2 ^ n % 2 ^ 64 } := by
  have hcross : a.toNat * 2 ^ n / 2 ^ 64 = (hi a).toNat * 2 ^ n + (lo a).toNat / 2 ^ (64 - n) := by
    rw [← pow_sub_mul_pow 2 hn.le, Nat.mul_div_mul_right _ _ (Nat.two_pow_pos n), toNat_eq_halves a,
      ← pow_sub_mul_pow 2 hn.le, mul_left_comm, Nat.mul_add_div (Nat.two_pow_pos _)]
  have hlow : a.toNat * 2 ^ n % 2 ^ 64 = (lo a).toNat * 2 ^ n % 2 ^ 64 := by
    rw [toNat_lo, Nat.mod_mul_mod]
  rw [halvesOf_eq_div_mod, hy, ← hcross, ← hlow, show 2 ^ 128 = 2 ^ 64 * 2 ^ 64 from rfl,
    Nat.mod_mul_right_div_self, Nat.mod_mul_right_mod]

/-- From 64 on the low half is empty and the high half is the old low half, shifted on (R66). -/
theorem halvesOf_shl_of_le (hy : y.toNat = a.toNat * 2 ^ n % 2 ^ 128) (hn : 64 ≤ n) :
    halvesOf y = { hi := (lo a).toNat * 2 ^ (n - 64) % 2 ^ 64, lo := 0 } := by
  have hshift : y.toNat = (lo a).toNat * 2 ^ (n - 64) % 2 ^ 64 * 2 ^ 64 := by
    rw [hy, ← pow_sub_mul_pow 2 hn, ← mul_assoc, show 2 ^ 128 = 2 ^ 64 * 2 ^ 64 from rfl, Nat.mul_mod_mul_right,
      toNat_lo, Nat.mod_mul_mod]
  rw [halvesOf_eq_div_mod, hshift, Nat.mul_div_cancel _ (Nat.two_pow_pos 64), Nat.mul_mod_left]

theorem halvesOf_eq_shlHalves (hy : y.toNat = (shlResult .w128 a.toNat n).res) : halvesOf y = shlHalves a n := by
  have hmod : y.toNat = a.toNat * 2 ^ n % 2 ^ 128 := hy.trans (shlResult_res_eq_mod .w128 _ _)
  unfold shlHalves
  split_ifs with h0 h64 h128
  · have hya : y.toNat = a.toNat := by rw [hmod, h0, pow_zero, mul_one, Nat.mod_eq_of_lt a.isLt]
    rw [BitVec.eq_of_toNat_eq hya]
  · exact halvesOf_shl_of_lt hmod h64
  · exact halvesOf_shl_of_le hmod (not_lt.mp h64)
  · have hy0 : y.toNat = 0 := hy.trans (shlResult_res_of_le _ (not_lt.mp h128))
    rw [halvesOf_eq_div_mod, hy0, Nat.zero_div, Nat.zero_mod]

/-- Below 64 the low half takes the bottom `n` bits of the high half (R68). -/
theorem halvesOf_shr_of_lt (hy : y.toNat = a.toNat / 2 ^ n) (hn : n < 64) :
    halvesOf y = { hi := (hi a).toNat / 2 ^ n
                   lo := ((lo a).toNat / 2 ^ n + (hi a).toNat * 2 ^ (64 - n)) % 2 ^ 64 } := by
  have hcross : a.toNat / 2 ^ n = (lo a).toNat / 2 ^ n + (hi a).toNat * 2 ^ (64 - n) := by
    rw [toNat_eq_halves a, ← pow_sub_mul_pow 2 hn.le, ← mul_assoc, add_comm,
      Nat.add_mul_div_right _ _ (Nat.two_pow_pos n)]
  rw [halvesOf_eq_div_mod, hy, ← hcross, Nat.div_right_comm, toNat_hi]

/-- From 64 on the high half is empty and the low half is the old high half, shifted on (R68). -/
theorem halvesOf_shr_of_le (hy : y.toNat = a.toNat / 2 ^ n) (hn : 64 ≤ n) :
    halvesOf y = { hi := 0, lo := (hi a).toNat / 2 ^ (n - 64) } := by
  have hshift : y.toNat = (hi a).toNat / 2 ^ (n - 64) := by
    rw [hy, ← pow_sub_mul_pow 2 hn, mul_comm, ← Nat.div_div_eq_div_mul, toNat_hi]
  have hfits : (hi a).toNat / 2 ^ (n - 64) < 2 ^ 64 := (Nat.div_le_self _ _).trans_lt (hi a).isLt
  rw [halvesOf_eq_div_mod, hshift, Nat.div_eq_of_lt hfits, Nat.mod_eq_of_lt hfits]

theorem halvesOf_eq_shrHalves (hy : y.toNat = (shrResult .w128 a.toNat n).res) : halvesOf y = shrHalves a n := by
  have hdiv : y.toNat = a.toNat / 2 ^ n := hy.trans (shrResult_res_eq_div a.isLt n)
  unfold shrHalves
  split_ifs with h0 h64 h128
  · have hya : y.toNat = a.toNat := by rw [hdiv, h0, pow_zero, Nat.div_one]
    rw [BitVec.eq_of_toNat_eq hya]
  · exact halvesOf_shr_of_lt hdiv h64
  · exact halvesOf_shr_of_le hdiv (not_lt.mp h64)
  · have hy0 : y.toNat = 0 := hy.trans (shrResult_res_of_le _ (not_lt.mp h128))
    rw [halvesOf_eq_div_mod, hy0, Nat.zero_div, Nat.zero_mod]

end

/-! ### The laws of the host's sequences (R69) -/

section
variable {w : Width} {a n : Nat} {s : State} (hs : s.resetSeen = true) (ha : a < 2 ^ w.bits) (hn : n < 2 ^ w.bits)
include hs ha hn

theorem runLines_shl :
    ∃ t, runLines [lineOf .shl w (.value a) (.value n)] s = .next t ∧ t.y.toNat = a * 2 ^ n % 2 ^ w.bits :=
  ⟨_, runLines_values hs ha hn [], (afterLine_y ha hn s).trans (shlResult_res_eq_mod w a n)⟩

theorem runLines_shr :
    ∃ t, runLines [lineOf .shr w (.value a) (.value n)] s = .next t ∧ t.y.toNat = a / 2 ^ n :=
  ⟨_, runLines_values hs ha hn [], (afterLine_y ha hn s).trans (shrResult_res_eq_div ha n)⟩

theorem runLines_shl_shr (h : n < w.bits) :
    ∃ t, runLines [lineOf .shl w (.value a) (.value n), lineOf .shr w .resultY (.value n)] s = .next t ∧
      t.y.toNat = a % 2 ^ (w.bits - n) := by
  rw [runLines_values hs ha hn, runLines_afterLine_resultY_value hs ha hn hn]
  exact ⟨_, rfl, (afterLine_y (opResult_lt .shl ha hn) hn _).trans (shrResult_shlResult_res a h)⟩

end

/-! ### The obligations -/

/-- Settles O17: the four cases, and the case below 64 at `n = 0` for the formula's claim. -/
theorem shlEqualsItsHalves : Obligations.ShlEqualsItsHalves := by
  unfold Obligations.ShlEqualsItsHalves
  refine ⟨fun s => ⟨_, exec_shl128 s, ?_⟩, fun a => halvesOf_shl_of_lt ?_ (by decide)⟩
  · exact halvesOf_eq_shlHalves (writeResult_toNat (shlResult_lt .w128 _ _) s)
  · rw [pow_zero, mul_one, Nat.mod_eq_of_lt a.isLt]

/-- Settles O18: the four cases. -/
theorem shrEqualsItsHalves : Obligations.ShrEqualsItsHalves := by
  unfold Obligations.ShrEqualsItsHalves
  intro s
  exact ⟨_, exec_shr128 s, halvesOf_eq_shrHalves (writeResult_toNat (shrResult_lt _ (toNat_lt_w128 s.latch.a)) s)⟩

/-- Settles O23: each law by its run; POW2 and MASK are those of the pseudo-instructions. -/
theorem shiftLaws : Obligations.ShiftLaws := by
  unfold Obligations.ShiftLaws
  intro w a n s hs ha hn
  exact ⟨runLines_shl hs ha hn, runLines_shr hs ha hn, runLines_pow2 hs hn,
    fun _ hp => ⟨expandPseudo_mask hp, runLines_mask hs hp⟩, runLines_shl_shr hs ha hn⟩

/-- Settles O7: `exec` writes the shifted value or 0. -/
theorem shlShiftsOrClears : Obligations.ShlShiftsOrClears := by
  unfold Obligations.ShlShiftsOrClears
  refine ⟨rfl, rfl, fun s => ?_, fun s => ?_⟩
  · exact ⟨_, exec_shl32 s, onlyResults_writeResult _ s, writeResult_shlResult .w32 _ _ s⟩
  · exact ⟨_, exec_shl128 s, onlyResults_writeResult _ s, writeResult_shlResult .w128 _ _ s⟩

/-- Settles O8: `exec` writes the quotient or 0. -/
theorem shrShiftsOrClears : Obligations.ShrShiftsOrClears := by
  unfold Obligations.ShrShiftsOrClears
  refine ⟨rfl, rfl, fun s => ?_, fun s => ?_⟩
  · exact ⟨_, exec_shr32 s, onlyResults_writeResult _ s, writeResult_shrResult (mod_lt_w32 _) _ s⟩
  · exact ⟨_, exec_shr128 s, onlyResults_writeResult _ s, writeResult_shrResult (toNat_lt_w128 _) _ s⟩

end Sys2Proof.Machine
end

section
/-! Comparison (42_compare.md R70 to R72): the outcome as an order, its decision by halves at `W = 128`, and the laws of
the host's sequences. -/

namespace Sys2Proof.Machine

/-! ### The laws of the outcome (R72) -/

theorem compareOrd_trichotomy (a b : Nat) : compareOrd a b = .eq ∨ compareOrd a b = .gt ∨ compareOrd a b = .lt := by
  rw [compareOrd_eq_iff, compareOrd_gt_iff, compareOrd_lt_iff]
  omega

theorem compareOrd_eq_or_lt_iff (a b : Nat) : compareOrd a b = .eq ∨ compareOrd a b = .lt ↔ a ≤ b := by
  rw [compareOrd_eq_iff, compareOrd_lt_iff, le_iff_eq_or_lt]

theorem compareOrd_gt_iff_swap_lt (a b : Nat) : compareOrd a b = .gt ↔ compareOrd b a = .lt := by
  rw [compareOrd_gt_iff, compareOrd_lt_iff]

theorem compareOrd_lt_trans {a b c : Nat} (hab : compareOrd a b = .lt) (hbc : compareOrd b c = .lt) :
    compareOrd a c = .lt := by
  rw [compareOrd_lt_iff] at *
  exact hab.trans hbc

/-! ### The outcome by halves (R71) -/

/-- The high halves decide unless they are equal, and then the low ones do. -/
theorem cmpHalves_eq_compareOrd (a b : Word) : cmpHalves a b = compareOrd a.toNat b.toNat := by
  have ha : a.toNat = (hi a).toNat * 2 ^ 64 + (lo a).toNat := toNat_eq_halves a
  have hb : b.toNat = (hi b).toNat * 2 ^ 64 + (lo b).toNat := toNat_eq_halves b
  have hla : (lo a).toNat < 2 ^ 64 := (lo a).isLt
  have hlb : (lo b).toNat < 2 ^ 64 := (lo b).isLt
  symm
  unfold cmpHalves
  split_ifs with hhiGt hhiLt hloGt hloLt
  · exact (compareOrd_gt_iff _ _).mpr (by omega)
  · exact (compareOrd_lt_iff _ _).mpr (by omega)
  · exact (compareOrd_gt_iff _ _).mpr (by omega)
  · exact (compareOrd_lt_iff _ _).mpr (by omega)
  · exact (compareOrd_eq_iff _ _).mpr (by omega)

/-! ### What the comparison writes (R70) -/

/-- The outcome, its code in `Y` and the flags, from the order of the operands. -/
theorem writeResult_cmpResult (a b : Nat) (s : State) :
    (a = b → (writeResult (cmpResult a b) s).ord = .eq) ∧ (b < a → (writeResult (cmpResult a b) s).ord = .gt) ∧
      (a < b → (writeResult (cmpResult a b) s).ord = .lt) ∧
      (writeResult (cmpResult a b) s).y = (ordBits (writeResult (cmpResult a b) s).ord).setWidth 128 ∧
      ((writeResult (cmpResult a b) s).c = true ↔ a < b) ∧
      ((writeResult (cmpResult a b) s).z = true ↔ (writeResult (cmpResult a b) s).y = 0) :=
  ⟨(compareOrd_eq_iff a b).mpr, (compareOrd_gt_iff a b).mpr, (compareOrd_lt_iff a b).mpr, cmpResult_y a b,
    cmpResult_c a b, writeResult_z_iff _ s⟩

/-! ### The laws of the host's sequences (R72) -/

/-- One comparison of two values of the width leaves their outcome in `ORD`. -/
theorem runLines_cmp {w : Width} {a b : Nat} {s : State} (hs : s.resetSeen = true) (ha : a < 2 ^ w.bits)
    (hb : b < 2 ^ w.bits) :
    ∃ t, runLines [lineOf .cmp w (.value a) (.value b)] s = .next t ∧ t.ord = compareOrd a b :=
  ⟨_, runLines_values hs ha hb [], rfl⟩

section
variable {w : Width} {a b : Nat} {s : State} (hs : s.resetSeen = true) (ha : a < 2 ^ w.bits) (hb : b < 2 ^ w.bits)
include hs ha

theorem runLines_cmp_self :
    ∃ t, runLines [lineOf .cmp w (.value a) (.value a)] s = .next t ∧ t.ord = .eq := by
  obtain ⟨t, ht, hord⟩ := runLines_cmp hs ha ha
  exact ⟨t, ht, hord.trans ((compareOrd_eq_iff a a).mpr rfl)⟩

include hb

/-- Exactly one outcome, and the host's loop tests on it (R72, laws 1 and 5). -/
theorem runLines_cmp_order :
    ∃ t, runLines [lineOf .cmp w (.value a) (.value b)] s = .next t ∧
      (t.ord = .eq ∨ t.ord = .gt ∨ t.ord = .lt) ∧
      (t.ord = .eq ∨ t.ord = .lt ↔ a ≤ b) ∧ (t.ord = .lt ↔ a < b) ∧ (t.ord = .gt ↔ b < a) := by
  obtain ⟨t, ht, hord⟩ := runLines_cmp hs ha hb
  refine ⟨t, ht, ?_⟩
  rw [hord]
  exact ⟨compareOrd_trichotomy a b, compareOrd_eq_or_lt_iff a b, compareOrd_lt_iff a b, compareOrd_gt_iff a b⟩

theorem runLines_cmp_mirror :
    ∃ t u, runLines [lineOf .cmp w (.value a) (.value b)] s = .next t ∧
      runLines [lineOf .cmp w (.value b) (.value a)] s = .next u ∧ (t.ord = .gt ↔ u.ord = .lt) := by
  obtain ⟨t, ht, hab⟩ := runLines_cmp hs ha hb
  obtain ⟨u, hu, hba⟩ := runLines_cmp hs hb ha
  refine ⟨t, u, ht, hu, ?_⟩
  rw [hab, hba, compareOrd_gt_iff_swap_lt]

theorem runLines_cmp_trans {c : Nat} (hc : c < 2 ^ w.bits) :
    ∃ t u v, runLines [lineOf .cmp w (.value a) (.value b)] s = .next t ∧
      runLines [lineOf .cmp w (.value b) (.value c)] s = .next u ∧
      runLines [lineOf .cmp w (.value a) (.value c)] s = .next v ∧
      (t.ord = .lt → u.ord = .lt → v.ord = .lt) := by
  obtain ⟨t, ht, hab⟩ := runLines_cmp hs ha hb
  obtain ⟨u, hu, hbc⟩ := runLines_cmp hs hb hc
  obtain ⟨v, hv, hac⟩ := runLines_cmp hs ha hc
  refine ⟨t, u, v, ht, hu, hv, ?_⟩
  rw [hab, hbc, hac]
  exact compareOrd_lt_trans

theorem runLines_cmp_sub :
    ∃ t u, runLines [lineOf .cmp w (.value a) (.value b)] s = .next t ∧
      runLines [lineOf .sub w (.value a) (.value b)] s = .next u ∧ (t.ord = .lt ↔ u.c = true) := by
  obtain ⟨u, t, hu, ht, h⟩ := runLines_sub_cmp hs ha hb
  exact ⟨t, u, ht, hu, h.symm⟩

end

/-! ### The obligations -/

/-- Settles O19: `exec` writes the outcome of the whole values, which the halves decide. -/
theorem cmpEqualsItsHalves : Obligations.CmpEqualsItsHalves := by
  unfold Obligations.CmpEqualsItsHalves
  intro s
  exact ⟨_, exec_cmp128 s, (cmpHalves_eq_compareOrd _ _).symm, rfl⟩

/-- Settles O24: each law by its runs, from the law of the outcome. -/
theorem compareLaws : Obligations.CompareLaws := by
  unfold Obligations.CompareLaws
  intro w a b s hs ha hb
  exact ⟨runLines_cmp_order hs ha hb, runLines_cmp_self hs ha, runLines_cmp_mirror hs ha hb,
    fun _ hc => runLines_cmp_trans hs ha hb hc, runLines_cmp_sub hs ha hb⟩

/-- Settles O9: `exec` writes the outcome of the operands at the width; ports are equal where their numbers are. -/
theorem cmpReportsTheOrder : Obligations.CmpReportsTheOrder := by
  unfold Obligations.CmpReportsTheOrder
  refine ⟨rfl, rfl, fun s => ?_, fun s => ?_⟩
  · exact ⟨_, exec_cmp32 s, onlyResults_writeResult _ s, writeResult_cmpResult _ _ s⟩
  · obtain ⟨heq, hrest⟩ := writeResult_cmpResult s.latch.a.toNat s.latch.b.toNat s
    exact ⟨_, exec_cmp128 s, onlyResults_writeResult _ s, fun h => heq (congrArg BitVec.toNat h), hrest⟩

end Sys2Proof.Machine
end

section
/-! Bitwise logic (43_logic.md R73 to R76): what AND, OR and NOT write, bit by bit at either width, and the halves at
`W = 128`. -/

namespace Sys2Proof.Machine

theorem testBit_atWidth_of_lt {w : Width} {i : Nat} (h : i < w.bits) (v : Word) :
    (atWidth w v).testBit i = v.getLsbD i := by
  rw [atWidth, modulus, Nat.testBit_mod_two_pow, decide_eq_true h, Bool.true_and, getLsbD_eq_testBit]

/-! ### What the bitwise commands write (R73 to R75) -/

/-- `t` holds a bitwise result: `bit` gives the bits of `Y` below `W`, and the flags are those of R73 to R75. -/
def HoldsBits (w : Width) (bit : Nat → Bool) (t : State) : Prop :=
  (∀ k < w.bits, t.y.getLsbD k = bit k) ∧ (∀ k, w.bits ≤ k → t.y.getLsbD k = false) ∧ t.c = false ∧
    (t.z = true ↔ t.y = 0) ∧ t.ord = .none

theorem holdsBits_writeResult {n : Nat} {w : Width} {bit : Nat → Bool} (hn : n < 2 ^ w.bits)
    (hbit : ∀ k < w.bits, n.testBit k = bit k) (s : State) : HoldsBits w bit (writeResult (plainResult n) s) := by
  have hy : ∀ k, (writeResult (plainResult n) s).y.getLsbD k = n.testBit k := fun k => by
    rw [getLsbD_eq_testBit, writeResult_toNat (r := plainResult n) hn, plainResult]
  refine ⟨fun k hk => (hy k).trans (hbit k hk), fun k hk => (hy k).trans ?_, rfl, writeResult_z_iff _ s, rfl⟩
  exact Nat.testBit_lt_two_pow (hn.trans_le (Nat.pow_le_pow_right two_pos hk))

section
variable {i : Instr} (s : State)

theorem exec_holdsBits_of_and (h : i.op = .and) :
    ∃ t, exec i s = .next t ∧ OnlyResults s t ∧
      HoldsBits i.width (fun k => s.latch.a.getLsbD k && s.latch.b.getLsbD k) t := by
  refine ⟨_, exec_eq i s, onlyResults_writeResult _ s, ?_⟩
  rw [commandResult, h]
  refine holdsBits_writeResult (andResult_lt _ (atWidth_lt _ _)) (fun k hk => ?_) s
  rw [andResult_res, Nat.testBit_and, testBit_atWidth_of_lt hk, testBit_atWidth_of_lt hk]

theorem exec_holdsBits_of_or (h : i.op = .or) :
    ∃ t, exec i s = .next t ∧ OnlyResults s t ∧
      HoldsBits i.width (fun k => s.latch.a.getLsbD k || s.latch.b.getLsbD k) t := by
  refine ⟨_, exec_eq i s, onlyResults_writeResult _ s, ?_⟩
  rw [commandResult, h]
  refine holdsBits_writeResult (orResult_lt (atWidth_lt _ _) (atWidth_lt _ _)) (fun k hk => ?_) s
  rw [orResult_res, Nat.testBit_or, testBit_atWidth_of_lt hk, testBit_atWidth_of_lt hk]

theorem exec_holdsBits_of_not (h : i.op = .not) :
    ∃ t, exec i s = .next t ∧ OnlyResults s t ∧ HoldsBits i.width (fun k => !s.latch.a.getLsbD k) t := by
  refine ⟨_, exec_eq i s, onlyResults_writeResult _ s, ?_⟩
  rw [commandResult, h]
  refine holdsBits_writeResult (notResult_lt _ _) (fun k hk => ?_) s
  rw [notResult_res, testBit_complement (atWidth_lt _ _), decide_eq_true hk, Bool.true_and, testBit_atWidth_of_lt hk]

end

/-! ### The halves (R76) -/

theorem y_eq_of_holdsBits {bit : Nat → Bool} {t : State} {v : Word} (ht : HoldsBits .w128 bit t)
    (hv : ∀ k < 128, v.getLsbD k = bit k) : t.y = v := by
  obtain ⟨hbits, -⟩ := ht
  exact BitVec.eq_of_getLsbD_eq fun k hk => (hbits k hk).trans (hv k hk).symm

theorem hi_and (a b : Word) : hi (a &&& b) = hi a &&& hi b := BitVec.extractLsb'_and
theorem lo_and (a b : Word) : lo (a &&& b) = lo a &&& lo b := BitVec.extractLsb'_and
theorem hi_or (a b : Word) : hi (a ||| b) = hi a ||| hi b := BitVec.extractLsb'_or
theorem lo_or (a b : Word) : lo (a ||| b) = lo a ||| lo b := BitVec.extractLsb'_or
theorem lo_not (a : Word) : lo (~~~a) = ~~~(lo a) := BitVec.extractLsb'_not_of_lt (by decide)

/-- The library's rule for the complement of a slice leaves out the topmost slice. -/
theorem hi_not (a : Word) : hi (~~~a) = ~~~(hi a) := by
  refine BitVec.eq_of_getLsbD_eq fun k hk => ?_
  have hk128 : 64 + k < 128 := by omega
  simp [hi, hk, hk128]

/-! ### The obligations -/

/-- Settles O10: both widths are AND of the bits of the operands. -/
theorem andIsBitwise : Obligations.AndIsBitwise := by
  unfold Obligations.AndIsBitwise
  refine ⟨rfl, rfl, fun s => exec_holdsBits_of_and s rfl, fun s => ?_⟩
  obtain ⟨t, ht, hframe, hbits, -, hflags⟩ := exec_holdsBits_of_and (i := .and128) s rfl
  exact ⟨t, ht, hframe, hbits, hflags⟩

/-- Settles O11: both widths are OR of the bits of the operands. -/
theorem orIsBitwise : Obligations.OrIsBitwise := by
  unfold Obligations.OrIsBitwise
  refine ⟨rfl, rfl, fun s => exec_holdsBits_of_or s rfl, fun s => ?_⟩
  obtain ⟨t, ht, hframe, hbits, -, hflags⟩ := exec_holdsBits_of_or (i := .or128) s rfl
  exact ⟨t, ht, hframe, hbits, hflags⟩

/-- Settles O12: both widths are the complement of the bits of `a`. -/
theorem notComplementsTheWidth : Obligations.NotComplementsTheWidth := by
  unfold Obligations.NotComplementsTheWidth
  refine ⟨rfl, rfl, fun s => exec_holdsBits_of_not s rfl, fun s => ?_⟩
  obtain ⟨t, ht, hframe, hbits, -, hflags⟩ := exec_holdsBits_of_not (i := .not128) s rfl
  exact ⟨t, ht, hframe, hbits, hflags⟩

/-- Settles O20: the bits of `Y` are those of the operation on the whole value, whose halves are those of the
operands. -/
theorem logicIsPerHalf : Obligations.LogicIsPerHalf := by
  unfold Obligations.LogicIsPerHalf
  refine ⟨fun s => ?_, fun s => ?_, fun s => ?_⟩
  · obtain ⟨t, ht, -, hbits⟩ := exec_holdsBits_of_and (i := .and128) s rfl
    have hy : t.y = s.latch.a &&& s.latch.b := y_eq_of_holdsBits hbits fun _ _ => BitVec.getLsbD_and
    exact ⟨t, ht, hy ▸ hi_and _ _, hy ▸ lo_and _ _, hy⟩
  · obtain ⟨t, ht, -, hbits⟩ := exec_holdsBits_of_or (i := .or128) s rfl
    have hy : t.y = s.latch.a ||| s.latch.b := y_eq_of_holdsBits hbits fun _ _ => BitVec.getLsbD_or
    exact ⟨t, ht, hy ▸ hi_or _ _, hy ▸ lo_or _ _, hy⟩
  · obtain ⟨t, ht, -, hbits⟩ := exec_holdsBits_of_not (i := .not128) s rfl
    have hy : t.y = ~~~s.latch.a := y_eq_of_holdsBits hbits fun k hk => by
      rw [BitVec.getLsbD_not, decide_eq_true hk, Bool.true_and]
    exact ⟨t, ht, hy ▸ hi_not _, hy ▸ lo_not _, hy⟩

end Sys2Proof.Machine
end

section
/-! Counts of zero bits (44_count.md R77 to R80): what CTZ and CLZ write at either width. -/

namespace Sys2Proof.Machine

theorem bits_pos (w : Width) : 0 < w.bits := by cases w <;> decide

/-- `Z` as the result itself, where it fits a width. -/
theorem writeResult_z_iff_res_eq_zero {r : Result} {w : Width} (h : r.res < 2 ^ w.bits) (s : State) :
    (writeResult r s).z = true ↔ r.res = 0 := by
  rw [← writeResult_toNat h s, ← BitVec.toNat_zero (w := 128), BitVec.toNat_inj]
  exact writeResult_z_iff r s

/-! ### The counts of a value (R77, R78) -/

/-- No greater power of two divides a value other than 0, powers beyond the width included. -/
theorem le_ctz_of_two_pow_dvd {n v k : Nat} (h0 : v ≠ 0) (hv : v < 2 ^ n) (h : 2 ^ k ∣ v) : k ≤ ctz n v := by
  have hk : 2 ^ k < 2 ^ n := (Nat.le_of_dvd (Nat.pos_of_ne_zero h0) h).trans_lt hv
  exact (two_pow_dvd_iff_le_ctz hv (Nat.pow_lt_pow_iff_right one_lt_two |>.mp hk).le).mp h

theorem ctz_eq_zero_iff {n : Nat} (hn : 0 < n) (v : Nat) : ctz n v = 0 ↔ v.testBit 0 = true := by
  constructor
  · intro h
    have hbit : v.testBit (ctz n v) = true := testBit_ctz (h ▸ hn)
    rwa [h] at hbit
  · intro h
    by_contra hne
    exact Bool.false_ne_true ((testBit_of_lt_ctz (Nat.pos_of_ne_zero hne)).symm.trans h)

theorem bitlen_le_iff {n v k : Nat} (hv : v < 2 ^ n) : bitlen n v ≤ k ↔ v < 2 ^ k :=
  ⟨fun h => (lt_two_pow_bitlen hv).trans_le (Nat.pow_le_pow_right two_pos h), bitlen_le_of_lt⟩

/-- No zero stands above the top set bit exactly when that is the top bit. -/
theorem clz_eq_zero_iff {n v : Nat} (hn : 0 < n) (hv : v < 2 ^ n) : clz n v = 0 ↔ v.testBit (n - 1) = true := by
  have hle : clz n v = 0 ↔ ¬ v < 2 ^ (n - 1) := by
    rw [← bitlen_le_iff hv, clz]
    omega
  rw [hle]
  constructor
  · intro h
    have hn1 : n - 1 + 1 = n := Nat.sub_add_cancel hn
    exact Nat.testBit_of_two_pow_le_and_two_pow_add_one_gt (not_lt.mp h) (hn1 ▸ hv)
  · intro h hlt
    exact Bool.false_ne_true ((Nat.testBit_lt_two_pow hlt).symm.trans h)

/-! ### What the counts write (R79, R80) -/

/-- `t` holds the number of trailing zeros of `a` at width `w`, with the flags of R79. -/
def HoldsTrailingZeros (w : Width) (a : Word) (t : State) : Prop :=
  (atWidth w a = 0 → t.y = BitVec.ofNat 128 w.bits) ∧
    (atWidth w a ≠ 0 →
      t.y.toNat < w.bits ∧ a.getLsbD t.y.toNat = true ∧ (∀ j < t.y.toNat, a.getLsbD j = false) ∧
        2 ^ t.y.toNat ∣ atWidth w a ∧ ∀ k, 2 ^ k ∣ atWidth w a → k ≤ t.y.toNat) ∧
    t.c = false ∧ (t.z = true ↔ t.y = 0) ∧ (t.z = true ↔ a.getLsbD 0 = true) ∧ t.ord = .none

/-- `t` holds the number of leading zeros of `a` at width `w`, with the flags of R80. -/
def HoldsLeadingZeros (w : Width) (a : Word) (t : State) : Prop :=
  t.y.toNat ≤ w.bits ∧ atWidth w a < 2 ^ (w.bits - t.y.toNat) ∧
    (∀ k, atWidth w a < 2 ^ k → w.bits - t.y.toNat ≤ k) ∧
    t.c = false ∧ (t.z = true ↔ t.y = 0) ∧ (t.z = true ↔ a.getLsbD (w.bits - 1) = true) ∧ t.ord = .none

theorem holdsTrailingZeros_writeResult (w : Width) (a : Word) (s : State) :
    HoldsTrailingZeros w a (writeResult (ctzResult w (atWidth w a)) s) := by
  have hy : (writeResult (ctzResult w (atWidth w a)) s).y.toNat = ctz w.bits (atWidth w a) :=
    writeResult_toNat (ctzResult_lt w _) s
  refine ⟨fun h0 => ?_, fun h0 => ?_, rfl, writeResult_z_iff _ s, ?_, rfl⟩
  · rw [writeResult_y, ctzResult_res, h0, ctz_zero]
  · have hlt : ctz w.bits (atWidth w a) < w.bits := ctz_lt h0 (atWidth_lt w a)
    rw [hy]
    refine ⟨hlt, ?_, fun j hj => ?_, ?_, fun k => le_ctz_of_two_pow_dvd h0 (atWidth_lt w a)⟩
    · rw [← testBit_atWidth_of_lt hlt, testBit_ctz hlt]
    · rw [← testBit_atWidth_of_lt (hj.trans hlt), testBit_of_lt_ctz hj]
    · exact (two_pow_dvd_iff_le_ctz (atWidth_lt w a) hlt.le).mpr le_rfl
  · rw [writeResult_z_iff_res_eq_zero (ctzResult_lt w _), ctzResult_res, ctz_eq_zero_iff (bits_pos w),
      testBit_atWidth_of_lt (bits_pos w)]

theorem holdsLeadingZeros_writeResult (w : Width) (a : Word) (s : State) :
    HoldsLeadingZeros w a (writeResult (clzResult w (atWidth w a)) s) := by
  have hy : (writeResult (clzResult w (atWidth w a)) s).y.toNat = clz w.bits (atWidth w a) :=
    writeResult_toNat (clzResult_lt w _) s
  have htop : w.bits - 1 < w.bits := Nat.sub_lt (bits_pos w) one_pos
  unfold HoldsLeadingZeros
  rw [hy, sub_clz]
  refine ⟨clz_le _ _, lt_two_pow_bitlen (atWidth_lt w a), fun _ => bitlen_le_of_lt, rfl, writeResult_z_iff _ s, ?_, rfl⟩
  rw [writeResult_z_iff_res_eq_zero (clzResult_lt w _), clzResult_res, clz_eq_zero_iff (bits_pos w) (atWidth_lt w a),
    testBit_atWidth_of_lt htop]

/-! ### The obligations -/

/-- Settles O13: both widths hold the trailing zeros of `a`; a port is 0 where its number is. -/
theorem ctzFindsTheLowestOne : Obligations.CtzFindsTheLowestOne := by
  unfold Obligations.CtzFindsTheLowestOne
  refine ⟨rfl, rfl, fun s => ?_, fun s => ?_⟩
  · exact ⟨_, exec_ctz32 s, onlyResults_writeResult _ s, holdsTrailingZeros_writeResult .w32 _ s⟩
  · have h := holdsTrailingZeros_writeResult .w128 s.latch.a s
    rw [HoldsTrailingZeros, atWidth_w128] at h
    obtain ⟨hzero, hcount, hflags⟩ := h
    exact ⟨_, exec_ctz128 s, onlyResults_writeResult _ s, fun h0 => hzero (congrArg BitVec.toNat h0),
      fun h0 => hcount fun hn => h0 (BitVec.eq_of_toNat_eq hn), hflags⟩

/-- Settles O14: both widths hold the leading zeros of `a`. -/
theorem clzCountsAboveTheTopOne : Obligations.ClzCountsAboveTheTopOne := by
  unfold Obligations.ClzCountsAboveTheTopOne
  refine ⟨rfl, rfl, fun s => ?_, fun s => ?_⟩
  · exact ⟨_, exec_clz32 s, onlyResults_writeResult _ s, holdsLeadingZeros_writeResult .w32 _ s⟩
  · have h := holdsLeadingZeros_writeResult .w128 s.latch.a s
    rw [HoldsLeadingZeros, atWidth_w128] at h
    exact ⟨_, exec_clz128 s, onlyResults_writeResult _ s, h⟩

end Sys2Proof.Machine
end

section
/-! Reset, the handshake and time (70_reset_and_hazards.md R93 to R105): what a run of edges does while a command is in
flight and while the host offers nothing, and what a single edge takes from the ports. -/

namespace Sys2Proof.Machine

/-! ### Runs of edges that complete nothing (R97, R100) -/

theorem quiet_idleInput : Quiet idleInput := ⟨rfl, rfl⟩

/-- A property of the next `k + 1` samples holds of the `k` samples after the first. -/
theorem forall_mem_take_tail {P : EdgeInput → Prop} {es : List EdgeInput} {k : Nat}
    (h : ∀ p ∈ es.take (k + 1), P p) : ∀ p ∈ es.tail.take k, P p := by
  cases es with
  | nil => simp
  | cons e es => exact fun p hp => h p (List.mem_cons_of_mem e hp)

/-- The state after `k` edges that only consume their samples. -/
def idledBy (k : Nat) (s : State) : State := { s with inputs := s.inputs.drop k }

/-- The state after `k` edges that only count down the flight and consume their samples. -/
def flownBy (k : Nat) (s : State) : State := { idledBy k s with remaining := s.remaining - k }

theorem idledBy_dropSample (k : Nat) (s : State) : idledBy k (dropSample s) = idledBy (k + 1) s := by
  simp only [idledBy, dropSample, List.drop_tail]

theorem flownBy_waitEdge_dropSample (k : Nat) (s : State) :
    flownBy k (waitEdge (dropSample s)) = flownBy (k + 1) s := by
  simp only [flownBy, idledBy, waitEdge, dropSample, List.drop_tail, Nat.sub_sub, Nat.add_comm 1 k]

/-- With nothing in flight and nothing offered, every edge only consumes its sample. -/
theorem run_idle {k : Nat} {s : State} (hs : s.resetSeen = true) (hb : s.busy = false)
    (h : ∀ p ∈ s.inputs.take k, Quiet p ∧ p.cmdValid = false) :
    Host.Core.run Sys2Proof.core k s = .next (idledBy k s) := by
  induction k generalizing s with
  | zero => rfl
  | succ k ih =>
    obtain ⟨hq, hv⟩ := portSample_of_forall (P := fun p => Quiet p ∧ p.cmdValid = false) k.succ_ne_zero
      ⟨quiet_idleInput, rfl⟩ h
    rw [run_succ_of_step (step_idle hq hs hb hv), ← idledBy_dropSample]
    exact ih hs hb (forall_mem_take_tail h)

/-- Before the completion edge the flight is only counted down, whatever the host offers (R100). -/
theorem run_wait {k : Nat} {s : State} (hs : s.resetSeen = true) (hb : s.busy = true) (hk : k < s.remaining)
    (h : ∀ p ∈ s.inputs.take k, Quiet p) : Host.Core.run Sys2Proof.core k s = .next (flownBy k s) := by
  induction k generalizing s with
  | zero => rfl
  | succ k ih =>
    have hq : Quiet (portSample s) := portSample_of_forall k.succ_ne_zero quiet_idleInput h
    have hk' : k < (waitEdge (dropSample s)).remaining := by
      rw [waitEdge_remaining, dropSample_remaining]
      omega
    rw [run_succ_of_step (step_wait hq hs hb (by omega)), ← flownBy_waitEdge_dropSample]
    exact ih hs hb hk' (forall_mem_take_tail h)

/-- The last edge of a flight applies `Perform`: the edges before it have only been counted down (R99). -/
theorem run_flight {k : Nat} {s : State} (hs : s.resetSeen = true) (hb : s.busy = true) (hk : s.remaining = k + 1)
    (h : ∀ p ∈ s.inputs.take (k + 1), Quiet p) :
    Host.Core.run Sys2Proof.core (k + 1) s = .next (performed (endFlight (idledBy (k + 1) s))) := by
  induction k generalizing s with
  | zero =>
    have hq : Quiet (portSample s) := portSample_of_forall one_ne_zero quiet_idleInput h
    rw [run_succ_of_step (step_completion hq hs hb hk.le), run_zero, ← idledBy_dropSample]
    rfl
  | succ k ih =>
    have hq : Quiet (portSample s) := portSample_of_forall (k + 1).succ_ne_zero quiet_idleInput h
    have hk' : (waitEdge (dropSample s)).remaining = k + 1 := by
      rw [waitEdge_remaining, dropSample_remaining, hk, Nat.add_sub_cancel]
    rw [run_succ_of_step (step_wait hq hs hb (by omega)),
      ih (s := waitEdge (dropSample s)) hs hb hk' (forall_mem_take_tail h), ← idledBy_dropSample (k + 1) s]
    rfl

/-! ### The edges of a command offered to a ready unit (R99, R100) -/

section
variable {s : State} {r : Request} {ps tail : List EdgeInput}
variable (hs : s.resetSeen = true) (hb : s.busy = false) (hin : s.inputs = offerInput r.cmd r.a r.b :: (ps ++ tail))
include hin

theorem accepted_of_offer : accepted s = latchCommand r.cmd r.a r.b (dropSample s) := by
  rw [accepted, portSample_cons hin]
  rfl

/-- The samples of the flight are those that follow the offer. -/
theorem mem_of_mem_take_flight {k : Nat} (hk : k ≤ ps.length) :
    ∀ p ∈ (startFlight (accepted s)).inputs.take k, p ∈ ps := by
  rw [startFlight_inputs, accepted, latchCommand_inputs, dropSample_inputs, hin, List.tail_cons,
    List.take_append_of_le_length hk]
  exact fun p => List.mem_of_mem_take

include hs hb

theorem step_offer_completes (hl : s.latencyMinusOne = 0) :
    step s = .next (performed (endFlight (accepted s))) := by
  have hp : portSample s = offerInput r.cmd r.a r.b := portSample_cons hin
  exact step_acceptAndComplete (hp ▸ ⟨rfl, rfl⟩) hs hb (hp ▸ rfl) hl

theorem step_offer_startsFlight (hl : s.latencyMinusOne ≠ 0) : step s = .next (startFlight (accepted s)) := by
  have hp : portSample s = offerInput r.cmd r.a r.b := portSample_cons hin
  exact step_accept (hp ▸ ⟨rfl, rfl⟩) hs hb (hp ▸ rfl) hl

variable (hlen : ps.length = s.latencyMinusOne) (hq : ∀ p ∈ ps, Quiet p)
include hlen hq

/-- The `LATENCY`-th edge, the acceptance edge the first, applies `Perform` to the accepted command (R99). -/
theorem run_latency_of_offer : Host.Core.run Sys2Proof.core s.latency s =
    .next (performed (endFlight (idledBy s.latencyMinusOne (accepted s)))) := by
  rw [State.latency]
  cases hl : s.latencyMinusOne with
  | zero =>
    rw [run_succ_of_step (step_offer_completes hs hb hin hl)]
    rfl
  | succ n =>
    have hne : s.latencyMinusOne ≠ 0 := hl ▸ n.succ_ne_zero
    rw [run_succ_of_step (step_offer_startsFlight hs hb hin hne)]
    exact run_flight hs rfl hl fun p hp => hq p (mem_of_mem_take_flight hin (hlen.trans hl).ge p hp)

/-- After each edge before it the flight has only been counted down (R100). -/
theorem run_before_latency_of_offer {k : Nat} (hk : k < s.latencyMinusOne) :
    Host.Core.run Sys2Proof.core (k + 1) s = .next (flownBy k (startFlight (accepted s))) := by
  rw [run_succ_of_step (step_offer_startsFlight hs hb hin (Nat.ne_zero_of_lt hk))]
  exact run_wait hs rfl hk fun p hp => hq p (mem_of_mem_take_flight hin (hk.trans_eq hlen.symm).le p hp)

end

/-! ### The obligations -/

/-- Settles O39: the flight is counted down to its last edge, and that edge applies `Perform` to the latch, which has
held the command since the acceptance edge. -/
theorem commandCompletesAfterLatency : Obligations.CommandCompletesAfterLatency := by
  unfold Obligations.CommandCompletesAfterLatency
  intro s r ps tail hs hb hin hlen hq
  refine ⟨⟨_, _, performRequest_eq r s, run_latency_of_offer hs hb hin hlen hq, ?_, ?_, ?_⟩, fun k h1 hk => ?_⟩
  · rw [afterRequest_of_resetSeen hs, accepted_of_offer hin]
    exact visible_performed_congr rfl rfl
  · rw [performed_latch, accepted_of_offer hin]
    rfl
  · rw [performed_busy, endFlight_busy]
  · obtain ⟨j, rfl⟩ := Nat.exists_eq_add_of_le' h1
    exact ⟨_, run_before_latency_of_offer hs hb hin hlen hq (Nat.lt_of_succ_lt_succ hk), rfl, rfl⟩

/-- Settles O41: by induction on the edges, each of which shows what the command-level steps that it completes
produce. -/
theorem edgesRefineTheCommandModel : Obligations.EdgesRefineTheCommandModel := by
  unfold Obligations.EdgesRefineTheCommandModel
  intro k s t hs hrun
  exact run_refines_completedSteps hs hrun

/-- Settles O36: the reset edge ends the flight, and the idle edges after it only consume their samples. -/
theorem resetDiscardsTheFlight : Obligations.ResetDiscardsTheFlight := by
  unfold Obligations.ResetDiscardsTheFlight
  intro s e k tail _ hr h2 hin
  have hp : portSample s = e := portSample_cons hin
  have hidle : ∀ p ∈ (resetUnit (dropSample s)).inputs.take k, Quiet p ∧ p.cmdValid = false := by
    intro p hmem
    rw [resetUnit_inputs, dropSample_inputs, hin, List.tail_cons, List.take_left' List.length_replicate] at hmem
    obtain rfl := List.eq_of_mem_replicate hmem
    exact ⟨quiet_idleInput, rfl⟩
  have hstep : step s = .next (resetUnit (dropSample s)) := step_reset (hp ▸ h2) (hp ▸ hr)
  exact ⟨_, (run_succ_of_step hstep k).trans (run_idle rfl rfl hidle), rfl, rfl⟩

/-- Settles O37: an acceptance edge latches the ports at every `LATENCY`; a completion, a wait and an idle edge leave the
latch. -/
theorem acceptanceLatchesThePorts : Obligations.AcceptanceLatchesThePorts := by
  unfold Obligations.AcceptanceLatchesThePorts
  refine ⟨fun s hs hb hq hv => ?_, fun s hs hq hother => ?_⟩
  · by_cases hl : s.latencyMinusOne = 0
    · refine ⟨_, step_acceptAndComplete hq hs hb hv hl, performed_latch _, fun hlat => ?_⟩
      rw [State.latency, hl] at hlat
      omega
    · exact ⟨_, step_accept hq hs hb hv hl, rfl, fun _ => ⟨rfl, rfl⟩⟩
  · cases hb : s.busy with
    | true =>
      by_cases hk : s.remaining ≤ 1
      · exact ⟨_, step_completion hq hs hb hk, performed_latch _⟩
      · exact ⟨_, step_wait hq hs hb hk, rfl⟩
    | false =>
      have hv : (portSample s).cmdValid = false := hother.resolve_left (by simp [hb])
      exact ⟨_, step_idle hq hs hb hv, rfl⟩

/-- With a command in flight an edge looks at no port but `rst` (R98). -/
theorem step_inFlight_ignores_ports {s : State} {e e' : EdgeInput} (tail : List EdgeInput) (hs : s.resetSeen = true)
    (hb : s.busy = true) (hq : Quiet e) (hq' : Quiet e') :
    ∃ t, step { s with inputs := e :: tail } = .next t ∧ step { s with inputs := e' :: tail } = .next t := by
  by_cases hk : s.remaining ≤ 1
  · exact ⟨_, step_completion hq hs hb hk, step_completion hq' hs hb hk⟩
  · exact ⟨_, step_wait hq hs hb hk, step_wait hq' hs hb hk⟩

/-- Settles O38: a flight, an idle edge and a reset edge go by the state without its sample. -/
theorem portsAreIgnoredOutsideAcceptance : Obligations.PortsAreIgnoredOutsideAcceptance := by
  unfold Obligations.PortsAreIgnoredOutsideAcceptance
  refine ⟨fun s e e' tail => step_inFlight_ignores_ports tail, fun s e e' tail hs hq hq' hv hv' => ?_,
    fun s e e' tail hr hr' h2 h2' => ⟨_, step_reset h2 hr, step_reset h2' hr'⟩⟩
  rcases Bool.eq_false_or_eq_true s.busy with hb | hb
  · exact step_inFlight_ignores_ports tail hs hb hq hq'
  · exact ⟨_, step_idle hq hs hb hv, step_idle hq' hs hb hv'⟩

/-- Settles O35: a reset edge is `resetUnit` from any state, and no other edge clears `ERR`. -/
theorem resetEdgeTakesTheResetValues : Obligations.ResetEdgeTakesTheResetValues := by
  unfold Obligations.ResetEdgeTakesTheResetValues
  refine ⟨fun s hr h2 => ⟨_, step_reset h2 hr, rfl, rfl, rfl, rfl, rfl, rfl⟩,
    fun s t => step_keeps_err⟩

end Sys2Proof.Machine
end

section
/-! The invariant of every state after the first reset (10_state.md R28; 70_reset_and_hazards.md R96, R99, R109): a reset
gives it, every edge keeps it, and with it a flight ends within `LATENCY`, which no edge changes. -/

namespace Sys2Proof.Machine

/-! ### The clauses of the invariant -/

theorem flagsAgree_resetUnit (s : State) : FlagsAgree (resetUnit s) :=
  ⟨by simp, fun hord => absurd rfl hord⟩

/-- `Perform` keeps the agreement of the flags: a legal command makes them agree, the exception leaves them. -/
theorem flagsAgree_performed {s : State} (h : FlagsAgree s) : FlagsAgree (performed s) := by
  cases hd : decode s.latch.cmd with
  | ok i => rw [performed_of_ok hd]; exact flagsAgree_writeResult i s.latch s
  | error e => rw [performed_of_error hd]; exact h

/-- With nothing in flight and nothing counted, only the flags are to be shown. -/
theorem inv_of_notBusy {s : State} (hs : s.resetSeen = true) (hf : FlagsAgree s) (hb : s.busy = false)
    (hr : s.remaining = 0) : Inv s :=
  ⟨hs, hf, fun h => absurd h (by simp [hb]), fun _ => hr⟩

theorem inv_resetUnit (s : State) : Inv (resetUnit s) :=
  inv_of_notBusy rfl (flagsAgree_resetUnit s) rfl rfl

/-- A completion edge gives the invariant, whatever the flight before it. -/
theorem inv_performed_endFlight {s : State} (hs : s.resetSeen = true) (hf : FlagsAgree s) :
    Inv (performed (endFlight s)) := by
  refine inv_of_notBusy ?_ (flagsAgree_performed hf) ?_ ?_
  · rw [performed_resetSeen, endFlight_resetSeen, hs]
  · rw [performed_busy, endFlight_busy]
  · rw [performed_remaining, endFlight_remaining]

theorem inv_step {s t : State} (h : Inv s) (hstep : step s = .next t) : Inv t := by
  obtain ⟨hs, hf, hflight, hready⟩ := h
  cases edgeCase s with
  | secondAgent h2 => rw [step_secondAgent h2] at hstep; cases hstep
  | reset h2 hr => rw [step_reset h2 hr] at hstep; cases hstep; exact inv_resetUnit _
  | beforeReset _ hs' => exact absurd hs (by simp [hs'])
  | completion hq _ hb hk =>
    rw [step_completion hq hs hb hk] at hstep
    cases hstep
    exact inv_performed_endFlight (s := dropSample s) hs hf
  | wait hq _ hb hk =>
    rw [step_wait hq hs hb hk] at hstep
    cases hstep
    obtain ⟨-, hle⟩ := hflight hb
    refine ⟨hs, hf, fun _ => ?_, fun hb' => absurd hb' (by simp [hb])⟩
    rw [waitEdge_remaining, waitEdge_latencyMinusOne, dropSample_remaining, dropSample_latencyMinusOne]
    omega
  | acceptAndComplete hq _ hb hv hl =>
    rw [step_acceptAndComplete hq hs hb hv hl] at hstep
    cases hstep
    exact inv_performed_endFlight (s := accepted s) hs hf
  | accept hq _ hb hv hl =>
    rw [step_accept hq hs hb hv hl] at hstep
    cases hstep
    exact ⟨hs, hf, fun _ => ⟨Nat.one_le_iff_ne_zero.mpr hl, le_rfl⟩, fun hb' => absurd hb' (by simp)⟩
  | idle hq _ hb hv =>
    rw [step_idle hq hs hb hv] at hstep
    cases hstep
    exact ⟨hs, hf, hflight, hready⟩

theorem inv_run {k : Nat} {s t : State} (h : Inv s) (hrun : Host.Core.run Sys2Proof.core k s = .next t) : Inv t := by
  induction k generalizing s with
  | zero => cases hrun; exact h
  | succ k ih =>
    obtain ⟨u, hstep, hrest⟩ := step_of_run_succ hrun
    exact ih (inv_step h hstep) hrest

/-! ### `LATENCY` (00_scope.md R9) -/

/-- Without a second agent an edge answers a next state, of the same `LATENCY`. -/
theorem step_next_latency {s : State} (h2 : (portSample s).secondAgent = false) :
    ∃ t, step s = .next t ∧ t.latency = s.latency := by
  cases edgeCase s with
  | secondAgent h2' => exact absurd h2' (by simp [h2])
  | reset _ hr => exact ⟨_, step_reset h2 hr, rfl⟩
  | beforeReset hq hs => exact ⟨_, step_beforeReset hq hs, rfl⟩
  | completion hq hs hb hk => exact ⟨_, step_completion hq hs hb hk, congrArg (· + 1) (performed_latencyMinusOne _)⟩
  | wait hq hs hb hk => exact ⟨_, step_wait hq hs hb hk, rfl⟩
  | acceptAndComplete hq hs hb hv hl =>
    exact ⟨_, step_acceptAndComplete hq hs hb hv hl, congrArg (· + 1) (performed_latencyMinusOne _)⟩
  | accept hq hs hb hv hl => exact ⟨_, step_accept hq hs hb hv hl, rfl⟩
  | idle hq hs hb hv => exact ⟨_, step_idle hq hs hb hv, rfl⟩

theorem latency_step {s t : State} (h : step s = .next t) : t.latency = s.latency := by
  cases h2 : (portSample s).secondAgent with
  | true => rw [step_secondAgent h2] at h; cases h
  | false =>
    obtain ⟨u, hu, hlat⟩ := step_next_latency h2
    rw [h] at hu
    cases hu
    exact hlat

theorem latency_run {k : Nat} {s t : State} (h : Host.Core.run Sys2Proof.core k s = .next t) :
    t.latency = s.latency := by
  induction k generalizing s with
  | zero => cases h; rfl
  | succ k ih =>
    obtain ⟨u, hstep, hrest⟩ := step_of_run_succ h
    exact (ih hrest).trans (latency_step hstep)

/-- A flight needs a `LATENCY` of 2 or more (10_state.md R21). -/
theorem busy_eq_false_of_latency_one {s : State} (h : Inv s) (hl : s.latency = 1) : s.busy = false := by
  obtain ⟨-, -, hflight, -⟩ := h
  by_contra hb
  obtain ⟨hpos, hle⟩ := hflight (Bool.eq_true_of_not_eq_false hb)
  rw [State.latency] at hl
  omega

/-! ### The obligations -/

/-- Settles O43: edge by edge, a completion by what `Perform` keeps. -/
theorem everyStepKeepsTheInvariant : Obligations.EveryStepKeepsTheInvariant := by
  unfold Obligations.EveryStepKeepsTheInvariant
  exact fun s t => inv_step

/-- Settles O42: the reset state is the reset of itself. -/
theorem resetMeetsTheInvariant : Obligations.ResetMeetsTheInvariant := by
  unfold Obligations.ResetMeetsTheInvariant
  exact inv_resetUnit State.reset

/-- Settles O44: a reset edge is `resetUnit`. -/
theorem oneResetEdgeIsEnough : Obligations.OneResetEdgeIsEnough := by
  unfold Obligations.OneResetEdgeIsEnough
  exact fun s hr h2 => ⟨_, step_reset h2 hr, inv_resetUnit _, rfl, rfl⟩

/-- Settles O40: the invariant bounds the flight, whose last edge applies `Perform`. -/
theorem busyEndsWithinLatency : Obligations.BusyEndsWithinLatency := by
  unfold Obligations.BusyEndsWithinLatency
  intro s hinv hb hq
  obtain ⟨hs, -, hflight, -⟩ := hinv
  obtain ⟨hpos, hle⟩ := hflight hb
  obtain ⟨k, hk⟩ := Nat.exists_eq_add_of_le' hpos
  rw [hk] at hq ⊢
  refine ⟨?_, _, _, run_flight hs hb hk hq, perform_eq s, visible_performed_congr rfl rfl, ?_⟩
  · rw [State.latency]
    omega
  · rw [performed_busy, endFlight_busy]

/-- Settles O52: no edge changes `LATENCY`, which is a successor. -/
theorem latencyIsFixed : Obligations.LatencyIsFixed := by
  unfold Obligations.LatencyIsFixed
  exact fun s t h => ⟨latency_step h, Nat.le_add_left 1 _⟩

/-- Settles O53: runs keep the invariant and `LATENCY`, and with `LATENCY = 1` the invariant leaves no flight. -/
theorem neverBusyAtLatencyOne : Obligations.NeverBusyAtLatencyOne := by
  unfold Obligations.NeverBusyAtLatencyOne
  refine ⟨fun s => rfl, fun k s t hinv hl hrun => ?_⟩
  have hb : t.busy = false := busy_eq_false_of_latency_one (inv_run hinv hrun) ((latency_run hrun).trans hl)
  exact ⟨hb, congrArg Bool.not hb⟩

/-- Settles O50: a second agent is refused, and every other edge answers a next state. -/
theorem onlyASecondAgentIsRefused : Obligations.OnlyASecondAgentIsRefused := by
  unfold Obligations.OnlyASecondAgentIsRefused
  refine ⟨fun s => step_secondAgent, fun s h2 => ?_⟩
  obtain ⟨t, ht, -⟩ := step_next_latency h2
  exact ⟨t, ht⟩

/-- Settles O51: idle edges only consume their samples. -/
theorem idleEdgesChangeNothing : Obligations.IdleEdgesChangeNothing := by
  unfold Obligations.IdleEdgesChangeNothing
  exact fun k s => run_idle

end Sys2Proof.Machine
end

section
/-! The words of the commands (30_encoding.md R44 to R55), the edges that run the command of a word
(70_reset_and_hazards.md R97, R99), the reset values (10_state.md R26) and the draws before the first reset (R95). -/

namespace Sys2Proof.Machine

/-! ### The command that a word names (30_encoding.md R47, R53) -/

theorem decode_encode (i : Instr) : decode (encode i) = .ok i := (decode_eq_ok_iff_encode _ i).mpr rfl

theorem decodeTableWord_eq_some_iff (nbits w : Nat) (i : Instr) :
    decodeTableWord nbits w = some i ↔ decode (BitVec.ofNat 8 (w % 2 ^ nbits)) = .ok i := by
  unfold decodeTableWord
  cases decode (BitVec.ofNat 8 (w % 2 ^ nbits)) <;> simp [Except.toOption]

theorem exec_eq_performed {s : State} {i : Instr} (h : decode s.latch.cmd = .ok i) :
    exec i s = .next (performed s) := by
  rw [exec_eq, performed_of_ok h]

/-! ### A command placed for the next edge -/

/-- The offer is accepted and completed at that edge. -/
theorem step_offerNext (cmd : Byte) (s : State) :
    step (offerNext cmd s) = .next (performed (endFlight (accepted (offerNext cmd s)))) :=
  step_offer_completes (r := { cmd := cmd, a := (portSample s).a, b := (portSample s).b }) (ps := []) rfl rfl rfl rfl

/-! ### The draws (R95) -/

theorem drawnAt_drawPowerUp (s : State) : DrawnAt s.draws (drawPowerUp s) :=
  ⟨rfl, rfl, rfl, rfl, rfl, rfl, rfl, rfl⟩

/-! ### The obligations -/

/-- Settles O1: the words are those of the table, and the decoder computes. -/
theorem knownWordsDecode : Obligations.KnownWordsDecode := by
  unfold Obligations.KnownWordsDecode
  decide

/-- Settles O2: an encoding decodes to its command, and a byte is its own table word. -/
theorem decodeOfEncode : Obligations.DecodeOfEncode := by
  unfold Obligations.DecodeOfEncode
  intro i _
  refine ⟨decode_encode i, (decodeTableWord_eq_some_iff 8 _ i).mpr ?_⟩
  rw [Nat.mod_eq_of_lt (encode i).isLt, BitVec.ofNat_toNat, BitVec.setWidth_eq, decode_encode]

/-- Settles O34: by the definition of the reset state. -/
theorem resetLeavesTheSpecsValues : Obligations.ResetLeavesTheSpecsValues := by
  unfold Obligations.ResetLeavesTheSpecsValues
  decide

/-- Settles O48: both edges apply `Perform` to the latch, which is `exec` of the command it decodes to. -/
theorem stepRunsTheDecodedCommand : Obligations.StepRunsTheDecodedCommand := by
  unfold Obligations.StepRunsTheDecodedCommand
  refine ⟨fun s i hs hq hb hk hd => ?_, fun s i hs hq hb hv hl hd => ?_⟩
  · exact (step_completion hq hs hb hk).trans (exec_eq_performed (s := endFlight (dropSample s)) hd).symm
  · exact (step_acceptAndComplete hq hs hb hv (Nat.succ.inj hl)).trans
      (exec_eq_performed (s := endFlight (accepted s)) hd).symm

/-- Settles O49: the placed offer is accepted and completed, on the operands that stood on the ports. -/
theorem placedWordIsWhatRuns : Obligations.PlacedWordIsWhatRuns := by
  unfold Obligations.PlacedWordIsWhatRuns
  intro s nbits w i h
  have hd : decode (BitVec.ofNat 8 (w % 2 ^ nbits)) = .ok i := (decodeTableWord_eq_some_iff nbits w i).mp h
  exact (step_offerNext _ s).trans
    (exec_eq_performed (s := endFlight (accepted (s.withFetchWord nbits w))) hd).symm

/-- Settles O60: an edge and a command are one draw each. -/
theorem beforeTheFirstResetEveryBitIsDrawn : Obligations.BeforeTheFirstResetEveryBitIsDrawn := by
  unfold Obligations.BeforeTheFirstResetEveryBitIsDrawn
  refine ⟨fun s hs hq => ⟨_, step_beforeReset hq hs, drawnAt_drawPowerUp (dropSample s), rfl, rfl, rfl⟩,
    fun r s hs => ⟨_, performRequest_eq r s, ?_⟩⟩
  rw [afterRequest_beforeReset hs]
  exact ⟨drawnAt_drawPowerUp s, rfl, rfl, rfl⟩

end Sys2Proof.Machine
end

section
/-! Commands and their sequences (10_state.md R16, R27, R29; 20_memory.md R36; 30_encoding.md R48): what a command
changes, what it takes from its operands, and what the illegal commands of a sequence leave. -/

namespace Sys2Proof.Machine

/-! ### What a result takes from the operands (R36, R48) -/

theorem atWidth_w32 (v : Word) : atWidth .w32 v = (v.extractLsb' 0 32).toNat := by
  rw [BitVec.extractLsb'_toNat, Nat.shiftRight_zero]
  rfl

theorem opResult_of_isUnary {o : Op} (h : o.isUnary = true) (w : Width) (a b b' : Nat) :
    opResult o w a b = opResult o w a b' := by
  cases o with
  | not | ctz | clz => rfl
  | add | sub | shl | shr | cmp | and | or => cases h

/-- Two performances of a command show the same where its results are the same. -/
theorem perform_visible_congr {cmd : Byte} {i : Instr} {a b a' b' : Word} (s : State) (hd : decode cmd = .ok i)
    (h : commandResult i { cmd := cmd, a := a, b := b } = commandResult i { cmd := cmd, a := a', b := b' }) :
    ∃ t t', perform (latchCommand cmd a b s) = .next t ∧ perform (latchCommand cmd a' b' s) = .next t' ∧
      visible t = visible t' := by
  refine ⟨_, _, perform_eq _, perform_eq _, ?_⟩
  rw [performed_latchCommand_of_ok hd, performed_latchCommand_of_ok hd]
  exact visible_writeResult_congr h rfl

/-! ### Sequences with illegal commands (R29) -/

theorem isLegal_iff (r : Request) : isLegal r = true ↔ ∃ i, decode r.cmd = .ok i := by
  rw [isLegal]
  cases decode r.cmd <;> simp [Except.isOk, Except.toBool]

/-- Two states that the host tells apart by `ERR` alone. -/
def SameResults (s t : State) : Prop := s.y = t.y ∧ s.c = t.c ∧ s.z = t.z ∧ s.ord = t.ord

/-- The commands of a sequence against its legal commands alone, from states of the same results: an illegal command
writes `ERR`, and a legal one writes its results whatever `ERR` is. -/
theorem runCommands_filter_isLegal (rs : List Request) {s s' : State} (hs : s.resetSeen = true)
    (hs' : s'.resetSeen = true) (h : SameResults s s') : ∃ t u,
    runCommands (rs.map .command) s = .next t ∧ runCommands ((rs.filter isLegal).map .command) s' = .next u ∧
      SameResults t u ∧ u.err = s'.err ∧ t.err = (s.err || rs.any fun r => !isLegal r) := by
  induction rs generalizing s s' with
  | nil => exact ⟨s, s', rfl, rfl, h, rfl, by simp⟩
  | cons r rs ih =>
    rw [List.map_cons, runCommands_cons, afterCommandStep, afterRequest_of_resetSeen hs, List.any_cons]
    cases hd : decode r.cmd with
    | ok i =>
      have hr : isLegal r = true := (isLegal_iff r).mpr ⟨i, hd⟩
      rw [List.filter_cons_of_pos hr, List.map_cons, runCommands_cons, afterCommandStep,
        afterRequest_of_resetSeen hs', performed_latchCommand_of_ok hd, performed_latchCommand_of_ok hd, hr]
      exact ih hs hs' ⟨rfl, rfl, rfl, rfl⟩
    | error e =>
      have hr : isLegal r = false := by simp [← Bool.not_eq_true, isLegal_iff, hd]
      rw [List.filter_cons_of_neg (by simp [hr]), performed_latchCommand_of_error hd, hr]
      obtain ⟨t, u, ht, hu, hsame, huerr, hterr⟩ := ih (s := raiseIllegalCommand (latchCommand r.cmd r.a r.b s)) hs hs' h
      exact ⟨t, u, ht, hu, hsame, huerr, by simp [hterr]⟩

/-- A run of commands is fault-free exactly when it starts with `ERR = 0` and every command is legal (R109). -/
theorem faultFree_commands_iff (rs : List Request) {s : State} (hs : s.resetSeen = true) :
    faultFree (rs.map .command) s = true ↔ s.err = false ∧ ∀ r ∈ rs, isLegal r = true := by
  obtain ⟨t, -, ht, -, -, -, herr⟩ := runCommands_filter_isLegal rs hs hs ⟨rfl, rfl, rfl, rfl⟩
  simp [faultFree, ht, herr]

/-! ### The obligations -/

/-- Settles O46: from one state, the sequence and its legal commands leave the same results. -/
theorem illegalCommandsLeaveOnlyErr : Obligations.IllegalCommandsLeaveOnlyErr := by
  unfold Obligations.IllegalCommandsLeaveOnlyErr
  intro rs s hs
  obtain ⟨t, u, ht, hu, ⟨hy, hc, hz, hord⟩, herr⟩ := runCommands_filter_isLegal rs hs hs ⟨rfl, rfl, rfl, rfl⟩
  exact ⟨t, u, ht, hu, hy, hc, hz, hord, herr⟩

/-- Settles O47: the reset state has `ERR = 0`, so only the commands decide. -/
theorem faultFreeRunsHaveLegalWords : Obligations.FaultFreeRunsHaveLegalWords := by
  unfold Obligations.FaultFreeRunsHaveLegalWords
  intro rs
  simp only [faultFree_commands_iff rs (s := State.reset) rfl, isLegal_iff]
  exact and_iff_right rfl

/-- Settles O26: a result of `W = 32` fits 32 bits, and the exception leaves `Y`. -/
theorem resultRegisterRule : Obligations.ResultRegisterRule := by
  unfold Obligations.ResultRegisterRule
  refine ⟨fun i s => ⟨_, exec_eq i s, fun hw => writeResult_commandResult_upper hw s.latch s, rfl⟩,
    fun s e he => ⟨_, perform_eq s, ?_⟩⟩
  rw [performed_of_error he, raiseIllegalCommand_y]

/-- Settles O31: a legal command writes by `writeResult`, an illegal one by the exception. -/
theorem everyCommandHasItsFrame : Obligations.EveryCommandHasItsFrame := by
  unfold Obligations.EveryCommandHasItsFrame
  refine ⟨fun i s => ⟨_, exec_eq i s, onlyResults_writeResult _ s⟩, fun s i hd => ⟨_, perform_eq s, ?_⟩,
    fun s e he => ?_⟩
  · rw [performed_of_ok hd]
    exact onlyResults_writeResult _ s
  · rw [perform_eq, performed_of_error he, raiseIllegalCommand]

/-- Settles O32: at `W = 32` a result takes the low 32 bits of each operand. -/
theorem narrowCommandsIgnoreUpperBits : Obligations.NarrowCommandsIgnoreUpperBits := by
  unfold Obligations.NarrowCommandsIgnoreUpperBits
  intro i cmd a b a' b' s hw hd ha hb
  refine perform_visible_congr s hd ?_
  simp only [commandResult, hw, atWidth_w32, ha, hb]

/-- Settles O33: the result of a unary operation does not take `b`. -/
theorem unaryCommandsIgnoreB : Obligations.UnaryCommandsIgnoreB := by
  unfold Obligations.UnaryCommandsIgnoreB
  intro i cmd a b b' s hu hd
  exact perform_visible_congr s hd (opResult_of_isUnary hu _ _ _ _)

end Sys2Proof.Machine
end

section
/-! The halves of a sum (40_add_sub.md R60), and the per-half compositions and the laws of the counts
(44_count.md R81). -/

namespace Sys2Proof.Machine

/-! ### The halves of a sum (R60) -/

/-- The sum of two ports by halves: the carry of the low halves enters the high ones. -/
theorem halvesOf_eq_addHalves (a b : Word) {y : Word} (hy : y.toNat = (addResult .w128 a.toNat b.toNat).res) :
    halvesOf y = addHalves a b := by
  have hsum : y.toNat = (a.toNat + b.toNat) % 2 ^ 128 := hy
  simp only [halvesOf, addHalves, addHighSum, addHalfCarry, toNat_hi, toNat_lo, Halves.mk.injEq]
  constructor
  · split_ifs <;> omega
  · omega

/-- The carry out of the high halves is that of the whole values. -/
theorem addHalvesCarry_iff (a b : Word) : addHalvesCarry a b = true ↔ 2 ^ 128 ≤ a.toNat + b.toNat := by
  simp only [addHalvesCarry, addHighSum, addHalfCarry, toNat_hi, toNat_lo, decide_eq_true_iff]
  split_ifs <;> omega

/-! ### The counts of a value by its parts (R81) -/

/-- The lowest bit of the low `m + 1` bits, and the bits above it. -/
theorem mod_two_pow_succ (m v : Nat) : v % 2 ^ (m + 1) % 2 = v % 2 ∧ v % 2 ^ (m + 1) / 2 = v / 2 % 2 ^ m := by
  rw [Nat.pow_succ']
  exact ⟨Nat.mod_mul_right_mod _ _ _, Nat.mod_mul_right_div_self _ _ _⟩

/-- A set bit among the low `m` stops the count there. -/
theorem ctz_add_of_mod_ne_zero {m v : Nat} (n : Nat) (h : v % 2 ^ m ≠ 0) : ctz (m + n) v = ctz m (v % 2 ^ m) := by
  induction m generalizing v with
  | zero => exact absurd (Nat.mod_one v) h
  | succ m ih =>
    obtain ⟨hodd, hhalf⟩ := mod_two_pow_succ m v
    rw [Nat.add_right_comm, ctz, ctz, hodd, hhalf]
    split_ifs with h1
    · rfl
    · rw [ih (by omega)]

/-- With the low `m` bits 0 the count goes on in the bits above. -/
theorem ctz_add_of_mod_eq_zero {m v : Nat} (n : Nat) (h : v % 2 ^ m = 0) : ctz (m + n) v = m + ctz n (v / 2 ^ m) := by
  induction m generalizing v with
  | zero => simp
  | succ m ih =>
    obtain ⟨hodd, hhalf⟩ := mod_two_pow_succ m v
    rw [Nat.add_right_comm, ctz, if_neg (by omega), ih (by omega), Nat.div_div_eq_div_mul, ← Nat.pow_succ',
      Nat.add_right_comm]

/-- A set bit above the low `m` is the one that counts. -/
theorem bitlen_add_of_div_ne_zero {m v : Nat} (n : Nat) (h : v / 2 ^ m ≠ 0) :
    bitlen (n + m) v = bitlen n (v / 2 ^ m) + m := by
  induction m generalizing v with
  | zero => simp
  | succ m ih =>
    have hdiv : v / 2 / 2 ^ m = v / 2 ^ (m + 1) := by rw [Nat.div_div_eq_div_mul, Nat.pow_succ']
    have hv : v ≠ 0 := fun h0 => h (by simp [h0])
    rw [← Nat.add_assoc, bitlen, if_neg hv, ih (hdiv ▸ h), hdiv, Nat.add_assoc]

/-- The length of a value is that at any width which holds it. -/
theorem bitlen_congr {n m v : Nat} (hn : v < 2 ^ n) (hm : v < 2 ^ m) : bitlen n v = bitlen m v :=
  le_antisymm (bitlen_le_of_lt (lt_two_pow_bitlen hm)) (bitlen_le_of_lt (lt_two_pow_bitlen hn))

theorem ctz_eq_ctzHalves (v : Word) : ctz 128 v.toNat = ctzHalves v := by
  rw [ctzHalves, toNat_lo, toNat_hi]
  split_ifs with h
  · exact ctz_add_of_mod_ne_zero 64 h
  · exact ctz_add_of_mod_eq_zero 64 (not_not.mp h)

theorem clz_eq_clzHalves (v : Word) : clz 128 v.toNat = clzHalves v := by
  have hv : v.toNat = (hi v).toNat * 2 ^ 64 + (lo v).toNat := toNat_eq_halves v
  rw [clzHalves]
  split_ifs with h
  · rw [toNat_hi] at h
    rw [clz, clz, bitlen_add_of_div_ne_zero 64 h, toNat_hi]
    omega
  · have hlo : v.toNat = (lo v).toNat := by omega
    have hle : bitlen 64 (lo v).toNat ≤ 64 := bitlen_le _ _
    rw [clz, clz, hlo, bitlen_congr ((lo v).isLt.trans (by decide)) (lo v).isLt]
    omega

/-! ### The bits that the leading zeros count -/

section
variable {n v : Nat} (hv : v < 2 ^ n)
include hv

theorem testBit_of_lt_clz {j : Nat} (h : j < clz n v) : v.testBit (n - 1 - j) = false := by
  have hle : bitlen n v ≤ n - 1 - j := by
    rw [clz] at h
    omega
  exact Nat.testBit_lt_two_pow ((bitlen_le_iff hv).mp hle)

/-- Where the count stops below the width, it stops at a set bit. -/
theorem testBit_clz (h : clz n v < n) : v.testBit (n - 1 - clz n v) = true := by
  have hle : bitlen n v ≤ n := bitlen_le n v
  have htop : n - 1 - clz n v + 1 = bitlen n v := by
    rw [clz] at h ⊢
    omega
  refine Nat.testBit_of_two_pow_le_and_two_pow_add_one_gt (not_lt.mp fun hlt => ?_) ?_
  · have hlen : bitlen n v ≤ n - 1 - clz n v := bitlen_le_of_lt hlt
    omega
  · rw [htop]
    exact lt_two_pow_bitlen hv

theorem ctz_eq_width_iff : ctz n v = n ↔ v = 0 := by
  refine ⟨fun h => ?_, fun h => h ▸ ctz_zero n⟩
  by_contra h0
  exact (ctz_lt h0 hv).ne h

theorem bitlen_eq_zero_iff : bitlen n v = 0 ↔ v = 0 := by
  rw [← Nat.le_zero, bitlen_le_iff hv, pow_zero, Nat.lt_one_iff]

theorem clz_eq_width_iff : clz n v = n ↔ v = 0 := by
  have hle : bitlen n v ≤ n := bitlen_le n v
  rw [← bitlen_eq_zero_iff hv, clz]
  omega

/-- The binary logarithm from the leading zeros (R81). -/
theorem log2_add_clz (h0 : v ≠ 0) : Nat.log2 v + clz n v = n - 1 := by
  have hle : bitlen n v ≤ n := bitlen_le n v
  have hlen : bitlen n v = Nat.log2 v + 1 := (bitlen_eq_log2 hv).trans (if_neg h0)
  rw [clz]
  omega

end

/-- `k` ones are `k` bits long. -/
theorem bitlen_two_pow_sub_one {n k : Nat} (h : k ≤ n) : bitlen n (2 ^ k - 1) = k := by
  have hlt : 2 ^ k - 1 < 2 ^ k := Nat.sub_lt (Nat.two_pow_pos k) one_pos
  refine le_antisymm (bitlen_le_of_lt hlt) ?_
  have hlen : 2 ^ k - 1 < 2 ^ bitlen n (2 ^ k - 1) := lt_two_pow_bitlen (hlt.trans_le (Nat.pow_le_pow_right two_pos h))
  exact (Nat.pow_le_pow_iff_right one_lt_two).mp (by omega)

/-- The complement of a mask of length `p` has `p` leading zeros (R81). -/
theorem clz_complement_mask {n p : Nat} (h : p ≤ n) : clz n (2 ^ n - 1 - (2 ^ n - 2 ^ (n - p))) = p := by
  have hle : 2 ^ (n - p) ≤ 2 ^ n := Nat.pow_le_pow_right two_pos (Nat.sub_le n p)
  have hpos : 0 < 2 ^ (n - p) := Nat.two_pow_pos _
  rw [show 2 ^ n - 1 - (2 ^ n - 2 ^ (n - p)) = 2 ^ (n - p) - 1 by omega, clz,
    bitlen_two_pow_sub_one (Nat.sub_le n p), Nat.sub_sub_self h]

/-! ### The laws of the host's sequences (R81) -/

section
variable {w : Width} {x : Nat} {s : State} (hs : s.resetSeen = true) (hx : x < 2 ^ w.bits)
include hs hx

theorem runLines_ctz :
    ∃ t, runLines [lineOf .ctz w (.value x) (.value 0)] s = .next t ∧ t.y.toNat = ctz w.bits x :=
  ⟨_, runLines_values hs hx (Nat.two_pow_pos _) [], afterLine_y hx (Nat.two_pow_pos _) s⟩

theorem runLines_clz :
    ∃ t, runLines [lineOf .clz w (.value x) (.value 0)] s = .next t ∧ t.y.toNat = clz w.bits x :=
  ⟨_, runLines_values hs hx (Nat.two_pow_pos _) [], afterLine_y hx (Nat.two_pow_pos _) s⟩

theorem runLines_not_clz :
    ∃ t, runLines [lineOf .not w (.value x) (.value 0), lineOf .clz w .resultY (.value 0)] s = .next t ∧
      t.y.toNat = clz w.bits (2 ^ w.bits - 1 - x) := by
  have hpos : 0 < 2 ^ w.bits := Nat.two_pow_pos _
  rw [runLines_values hs hx hpos, runLines_afterLine_resultY_value hs hx hpos hpos]
  exact ⟨_, rfl, afterLine_y (opResult_lt .not hx hpos) hpos _⟩

theorem runLines_bitlen_least :
    ∃ t, runLines (expandPseudo (.bitlen w (.value x))) s = .next t ∧
      x < 2 ^ t.y.toNat ∧ ∀ k, x < 2 ^ k → t.y.toNat ≤ k := by
  obtain ⟨t, ht, hy⟩ := runLines_bitlen hs hx
  rw [← bitlen_eq_log2 hx] at hy
  refine ⟨t, ht, ?_⟩
  rw [hy]
  exact ⟨lt_two_pow_bitlen hx, fun _ => bitlen_le_of_lt⟩

theorem runLines_clz_log2 (h0 : x ≠ 0) :
    ∃ t, runLines [lineOf .clz w (.value x) (.value 0)] s = .next t ∧ Nat.log2 x + t.y.toNat = w.bits - 1 := by
  obtain ⟨t, ht, hy⟩ := runLines_clz hs hx
  exact ⟨t, ht, hy ▸ log2_add_clz hx h0⟩

theorem runLines_ctz_dvd {k : Nat} (hk : k ≤ w.bits) :
    ∃ t, runLines [lineOf .ctz w (.value x) (.value 0)] s = .next t ∧ (2 ^ k ∣ x ↔ k ≤ t.y.toNat) := by
  obtain ⟨t, ht, hy⟩ := runLines_ctz hs hx
  exact ⟨t, ht, hy ▸ two_pow_dvd_iff_le_ctz hx hk⟩

/-- The leading ones of `x` are the leading zeros of its complement; those of a mask are its length. -/
theorem runLines_not_clz_leadingOnes :
    ∃ t, runLines [lineOf .not w (.value x) (.value 0), lineOf .clz w .resultY (.value 0)] s = .next t ∧
      t.y.toNat ≤ w.bits ∧ (∀ j < t.y.toNat, x.testBit (w.bits - 1 - j) = true) ∧
      (t.y.toNat < w.bits → x.testBit (w.bits - 1 - t.y.toNat) = false) ∧
      ∀ p ≤ w.bits, x = 2 ^ w.bits - 2 ^ (w.bits - p) → t.y.toNat = p := by
  obtain ⟨t, ht, hy⟩ := runLines_not_clz hs hx
  have hlt : 2 ^ w.bits - 1 - x < 2 ^ w.bits := by omega
  have hpos : 0 < w.bits := bits_pos w
  have hbit : ∀ j, x.testBit (w.bits - 1 - j) = !(2 ^ w.bits - 1 - x).testBit (w.bits - 1 - j) := fun j => by
    rw [testBit_complement hx, decide_eq_true (by omega), Bool.true_and, Bool.not_not]
  refine ⟨t, ht, ?_⟩
  rw [hy]
  refine ⟨clz_le _ _, fun j hj => ?_, fun hstop => ?_, fun p hp hmask => ?_⟩
  · rw [hbit, testBit_of_lt_clz hlt hj, Bool.not_false]
  · rw [hbit, testBit_clz hlt hstop, Bool.not_true]
  · rw [hmask, clz_complement_mask hp]

theorem runLines_counts_zero :
    ∃ t u, runLines [lineOf .ctz w (.value x) (.value 0)] s = .next t ∧
      runLines [lineOf .clz w (.value x) (.value 0)] s = .next u ∧
      (t.y.toNat = w.bits ↔ x = 0) ∧ (u.y.toNat = w.bits ↔ x = 0) := by
  obtain ⟨t, ht, hctz⟩ := runLines_ctz hs hx
  obtain ⟨u, hu, hclz⟩ := runLines_clz hs hx
  exact ⟨t, u, ht, hu, hctz ▸ ctz_eq_width_iff hx, hclz ▸ clz_eq_width_iff hx⟩

end

/-! ### The obligations -/

/-- Settles O15: the halves of the sum, and the carry of the halves as that of the whole values. -/
theorem addEqualsItsHalves : Obligations.AddEqualsItsHalves := by
  unfold Obligations.AddEqualsItsHalves
  intro s
  refine ⟨_, exec_add128 s, ?_, ?_⟩
  · exact halvesOf_eq_addHalves _ _ (writeResult_toNat (addResult_lt .w128 _ _) s)
  · rw [writeResult_c, Bool.eq_iff_iff, addResult_c, addHalvesCarry_iff, bits_w128]

/-- Settles O21: `exec` writes the counts of the whole value, which cross the halves as R81 says. -/
theorem countsEqualTheirHalves : Obligations.CountsEqualTheirHalves := by
  unfold Obligations.CountsEqualTheirHalves
  refine ⟨fun s => ⟨_, exec_ctz128 s, ?_⟩, fun s => ⟨_, exec_clz128 s, ?_⟩⟩
  · exact (writeResult_toNat (ctzResult_lt .w128 _) s).trans (ctz_eq_ctzHalves _)
  · exact (writeResult_toNat (clzResult_lt .w128 _) s).trans (clz_eq_clzHalves _)

/-- Settles O25: each law by its runs, from the law of the counts. -/
theorem countLaws : Obligations.CountLaws := by
  unfold Obligations.CountLaws
  intro w x s hs hx
  exact ⟨runLines_bitlen_least hs hx, runLines_clz_log2 hs hx, fun _ hk => runLines_ctz_dvd hs hx hk,
    runLines_not_clz_leadingOnes hs hx, runLines_counts_zero hs hx⟩

end Sys2Proof.Machine
end

section
/-! The bytes of a port value (20_memory.md R33): the big-endian sum, and each byte as a field of the value. -/

namespace Sys2Proof.Machine

/-- The first byte has the greatest weight. -/
theorem beValue_eq_sum (buf : List Byte) :
    beValue buf = ∑ i : Fin buf.length, (buf.get i).toNat * 2 ^ (8 * (buf.length - 1 - i)) := by
  induction buf with
  | nil => rfl
  | cons x xs ih =>
    have hweight : ∀ i : Fin xs.length, (x :: xs).length - 1 - (i.succ : Nat) = xs.length - 1 - i := fun i => by
      rw [List.length_cons, Fin.val_succ]
      omega
    rw [beValue, ih]
    refine Eq.trans ?_ (Fin.sum_univ_succ _).symm
    simp only [hweight]
    rfl

/-- Byte `i` of an `n`-byte buffer, the first the most significant. -/
theorem getElem?_beBytes {n i : Nat} (v : Nat) (h : i < n) :
    (beBytes n v)[i]? = some (BitVec.ofNat 8 (v / 2 ^ (8 * (n - 1 - i)))) := by
  induction n generalizing i with
  | zero => exact absurd h (Nat.not_lt_zero i)
  | succ n ih =>
    cases i with
    | zero => rfl
    | succ i =>
      rw [beBytes, List.getElem?_cons_succ, ih (Nat.lt_of_succ_lt_succ h), show n + 1 - 1 - (i + 1) = n - 1 - i by omega]

/-- The same byte as a field of the value. -/
theorem getElem?_beBytes_toNat {m n i : Nat} (v : BitVec m) (h : i < n) :
    (beBytes n v.toNat)[i]? = some (v.extractLsb' (8 * (n - 1 - i)) 8) := by
  rw [getElem?_beBytes _ h, ← Nat.shiftRight_eq_div_pow]
  rfl

/-! ### The obligation -/

/-- Settles O54: the sum and the fields, and a 4-byte buffer fits 32 bits. -/
theorem byteViewIsBigEndian : Obligations.ByteViewIsBigEndian := by
  unfold Obligations.ByteViewIsBigEndian
  refine ⟨beValue_eq_sum, fun v i hi => ?_, fun v i hi => ?_, fun buf h => extractLsb'_32_96_eq_zero ?_⟩
  · rw [getElem?_beBytes_toNat v hi, show 8 * (16 - 1 - i) = 120 - 8 * i by omega]
  · rw [getElem?_beBytes_toNat v hi, show 8 * (4 - 1 - i) = 24 - 8 * i by omega]
  · rw [portOfBytes_toNat (by omega)]
    simpa [h] using beValue_lt buf

end Sys2Proof.Machine
end

section
/-! The assembler (30_encoding.md R55 to R57): what the reader makes of each printed line, and which lines it accepts. -/

namespace Sys2Proof.Machine

/-! ### What the reader makes of printed lines -/

/-- A command line as its text shows it: a unary command's `b` is not written, and is assembled as `0` (R55). -/
def asWritten (l : AsmLine) : AsmLine := { l with b := if l.instr.op.isUnary then .value 0 else l.b }

theorem asWritten_of_unary_zero {l : AsmLine} (h : l.instr.op.isUnary = true → l.b = .value 0) : asWritten l = l := by
  cases hu : l.instr.op.isUnary with
  | true => rw [asWritten, if_pos hu, ← h hu]
  | false => rw [asWritten, hu, if_neg Bool.false_ne_true]

theorem commandText_asWritten (l : AsmLine) :
    commandText l.instr.op l.instr.width (if l.instr.op.isUnary then [l.a] else [l.a, l.b]) =
      some (.command (asWritten l)) := by
  have hi : Instr.ofOp l.instr.op l.instr.width = l.instr := (ofOp_eq_iff _ _ _).mpr ⟨rfl, rfl⟩
  cases hu : l.instr.op.isUnary <;> simp [commandText, hu, lineOf, hi, asWritten]

theorem parseText_printText_command (hex : Bool) (l : AsmLine) :
    parseText (printText hex (.command l)) = some (.command (asWritten l)) := by
  have hname : ∀ o : Op, ' ' ∉ opName o ∧ '.' ∉ opName o ∧ opName o ≠ [] ∧ (opName o).map Char.toUpper = opName o := by
    intro o
    cases o <;> decide
  obtain ⟨hblank, hdot, hne, hupper⟩ := hname l.instr.op
  rw [printText, parseText_printWith hex _ _ hblank hdot hne hupper, opOfName_opName]
  exact commandText_asWritten l

/-- A line of a name that is no mnemonic is read as a pseudo-instruction. -/
theorem parseText_printWith_pseudo (hex : Bool) {name : List Char} (w : Width) (xs : List AsmOperand)
    (hn : ' ' ∉ name ∧ '.' ∉ name ∧ name ≠ [] ∧ name.map Char.toUpper = name ∧ opOfName name = none) :
    parseText (printWith hex name w xs) = pseudoText name w xs := by
  obtain ⟨hblank, hdot, hne, hupper, hop⟩ := hn
  rw [parseText_printWith hex w xs hblank hdot hne hupper, hop]

theorem parseText_printText_pseudo (hex : Bool) (p : Pseudo) :
    parseText (printText hex (.pseudo p)) = some (.pseudo p) := by
  cases p with
  | mov w x | clr w | inc w x | dec w x | neg w x | tst w x | pow2 w x | bitlen w x | mask w x =>
    exact parseText_printWith_pseudo hex w _ (by decide)

/-! ### What the reader reads as a command (R55) -/

theorem unary_zero_of_commandText {o : Op} {w : Width} {xs : List AsmOperand} {l : AsmLine}
    (h : commandText o w xs = some (.command l)) (hu : l.instr.op.isUnary = true) : l.b = .value 0 := by
  unfold commandText at h
  split at h
  · cases h
    rfl
  · next hbinary =>
    cases h
    rw [lineOf, op_ofOp, hbinary] at hu
    cases hu
  · cases h

theorem pseudoText_ne_command (name : List Char) (w : Width) (xs : List AsmOperand) (l : AsmLine) :
    pseudoText name w xs ≠ some (.command l) := by
  intro h
  unfold pseudoText at h
  split at h <;> cases h

/-- A command line that is read has `0` for the `b` of a unary command, however it is written. -/
theorem unary_zero_of_parseText {cs : List Char} {l : AsmLine} (h : parseText cs = some (.command l))
    (hu : l.instr.op.isUnary = true) : l.b = .value 0 := by
  simp only [parseText, Option.bind_eq_bind, Option.bind_eq_some_iff] at h
  obtain ⟨w, -, xs, -, h⟩ := h
  split at h
  · exact unary_zero_of_commandText h hu
  · exact absurd h (pseudoText_ne_command _ w xs l)

/-! ### What the check accepts and refuses (R56) -/

theorem parseLine_printText_pseudo (hex : Bool) {p : Pseudo} (h : p.wellFormed = true) :
    parseLine (printText hex (.pseudo p)) = some (.pseudo p) :=
  parseLine_eq_some.mpr ⟨parseText_printText_pseudo hex p, h⟩

theorem parseLine_printText_pseudo_eq_none (hex : Bool) {p : Pseudo} (h : p.wellFormed = false) :
    parseLine (printText hex (.pseudo p)) = none :=
  parseLine_eq_none (parseText_printText_pseudo hex p) h

theorem fits_value_eq_false {w : Width} {n : Nat} (h : 2 ^ w.bits ≤ n) : (AsmOperand.value n).fits w = false :=
  decide_eq_false (Nat.not_lt.mpr h)

/-- One operand that does not fit refuses the line, a `b` that is not written apart. -/
theorem parseLine_printText_command_eq_none (hex : Bool) {l : AsmLine}
    (h : l.a.fits l.instr.width = false ∨ l.b.fits l.instr.width = false ∧ l.instr.op.isUnary = false) :
    parseLine (printText hex (.command l)) = none := by
  refine parseLine_eq_none (parseText_printText_command hex l) ?_
  rcases h with ha | ⟨hb, hu⟩
  · simp [AsmText.wellFormed, AsmLine.wellFormed, asWritten, ha]
  · simp [AsmText.wellFormed, AsmLine.wellFormed, asWritten, hb, hu]

/-! ### The obligations -/

/-- Settles O59: every printed line reads as it is written, and the check accepts it where its values fit. -/
theorem printedTextParsesBack : Obligations.PrintedTextParsesBack := by
  unfold Obligations.PrintedTextParsesBack
  refine ⟨fun hex l ha hb hu => ?_, fun hex w x hx => ?_, fun hex w => parseLine_printText_pseudo hex rfl,
    fun hex w p hp => parseLine_printText_pseudo hex (decide_eq_true hp)⟩
  · refine parseLine_eq_some.mpr ⟨?_, (asmLine_wellFormed_iff l).mpr ⟨ha, hb, hu⟩⟩
    rw [parseText_printText_command, asWritten_of_unary_zero hu]
  · have haccept : ∀ p : Pseudo, p.wellFormed = x.fits w → parseLine (printText hex (.pseudo p)) = some (.pseudo p) :=
      fun p hp => parseLine_printText_pseudo hex (hp.trans ((fits_iff w x).mpr hx))
    exact ⟨haccept _ rfl, haccept _ rfl, haccept _ rfl, haccept _ rfl, haccept _ rfl, haccept _ rfl, haccept _ rfl⟩

/-- Settles O58: the check is what an accepted line fulfils, and a printed line that fails it is refused. -/
theorem assembledTextIsWellFormed : Obligations.AssembledTextIsWellFormed := by
  unfold Obligations.AssembledTextIsWellFormed
  refine ⟨fun cs l h => ?_, fun cs l h ha hb => ?_, fun hex i n x hn => ⟨?_, fun hu => ?_⟩, fun hex w n hn => ?_,
    fun hex w p hp => parseLine_printText_pseudo_eq_none hex (decide_eq_false (Nat.not_le.mpr hp))⟩
  · obtain ⟨hparse, hwf⟩ := parseLine_eq_some.mp h
    exact ⟨hparse, (asmLine_wellFormed_iff l).mp hwf⟩
  · exact parseLine_eq_some.mpr ⟨h, (asmLine_wellFormed_iff l).mpr ⟨ha, hb, unary_zero_of_parseText h⟩⟩
  · exact parseLine_printText_command_eq_none hex (.inl (fits_value_eq_false hn))
  · exact parseLine_printText_command_eq_none hex (.inr ⟨fits_value_eq_false hn, hu⟩)
  · have hrefuse : ∀ p : Pseudo, p.wellFormed = (AsmOperand.value n).fits w →
        parseLine (printText hex (.pseudo p)) = none :=
      fun p hp => parseLine_printText_pseudo_eq_none hex (hp.trans (fits_value_eq_false hn))
    exact ⟨hrefuse _ rfl, hrefuse _ rfl, hrefuse _ rfl, hrefuse _ rfl, hrefuse _ rfl, hrefuse _ rfl, hrefuse _ rfl⟩

end Sys2Proof.Machine
end
